-- ==== Sys2Proof/Word.lean ====
section
/-! DEFINITION. The bit-vector types the spec names widths for (00_scope.md R7, 10_state.md R20). -/

namespace Sys2Proof

/-- A register location or a character code: 8 bits (R60, R96). -/
abbrev Byte := BitVec 8

/-- An offset of the register space, 0x00 to 0x7F: 7 bits (R60). -/
abbrev Offset := BitVec 7

/-- A base-62 digit as `DS` stores it: 6 bits (R31). -/
abbrev Digit := BitVec 6

/-- The counters `DCNT` and `IDX`: 6 bits (R29, R32). -/
abbrev Count := BitVec 6

/-- The phase register `PH`: 3 bits (R28). -/
abbrev Phase := BitVec 3

/-- The accumulator `ACC`: 257 bits (R30). -/
abbrev Accum := BitVec 257

/-- A transaction word of format TX16 (R102). -/
abbrev TxWord := BitVec 16

end Sys2Proof
end

