-- ==== Sys2Proof/Config.lean ====
section
/-! DEFINITION. What is fixed for the machine: the constants of 00_scope.md R6, the register offsets of
20_memory.md R61, the codes of 30_encoding.md R91 and R100, the open parameters of R8, and the free values
for arguments at which the spec leaves a function undefined. -/

namespace Sys2Proof.Config

/-- `RADIX` (R6): the divisor and the multiplier. -/
@[simp] abbrev radix : Nat := 62

/-- `NBYTES` (R6): entries of the byte buffer `B`. -/
abbrev nbytes : Nat := 32

/-- `NBITS` (R6): width of the converted value. -/
abbrev nbits : Nat := 256

/-- `MAXCHARS` (R6): entries of the character buffer `C` and of the digit accumulator `DS`. -/
abbrev maxChars : Nat := 43

/-- Offset of `BLEN` (R61). -/
@[simp] abbrev blenOffset : Offset := 0x20#7

/-- Offset of `CLEN` (R61). -/
@[simp] abbrev clenOffset : Offset := 0x21#7

/-- Offset of `CMD` (R25, R61). -/
@[simp] abbrev cmdOffset : Offset := 0x22#7

/-- Offset of `STATUS` (R26, R61). -/
@[simp] abbrev statusOffset : Offset := 0x23#7

/-- First offset of `C` (R61). -/
@[simp] abbrev cBase : Nat := 0x40

/-- Command code of `ENC` (R91). -/
@[simp] abbrev opEnc : Byte := 0x01#8

/-- Command code of `DEC` (R91). -/
@[simp] abbrev opDec : Byte := 0x02#8

/-- `PH = IDLE` (R28). -/
@[simp] abbrev phIdle : Phase := 0#3

/-- `PH = ENC_DIV` (R28, R100). -/
@[simp] abbrev phEncDiv : Phase := 1#3

/-- `PH = ENC_REV` (R28, R100). -/
@[simp] abbrev phEncRev : Phase := 2#3

/-- `PH = DEC_MAC` (R28, R100). -/
@[simp] abbrev phDecMac : Phase := 3#3

/-- `PH = DEC_CHK` (R28, R100). -/
@[simp] abbrev phDecChk : Phase := 4#3

/-- `RESET_KIND` (R8): how the reset input acts; the effect is R260 either way. -/
inductive ResetKind where
  | synchronous
  | asynchronous
  deriving DecidableEq, Repr, Inhabited

/-- `BASE` (R8, D3): where the 128 locations sit on the host's bus. Open; log entry 13. -/
opaque base : Nat

/-- The system address of an offset (R60, R61). -/
def busAddress (a : Offset) : Nat := base + a.toNat

/-- Clock cycles beyond the first of the block's `n`-th step (R8, R277). Open; log entry 13. -/
opaque extraCycles : Nat → Nat

/-- `STEP_CYCLES` (R8): at least 1, and it may differ per step. No rule depends on it. -/
def stepCycles (n : Nat) : Nat := extraCycles n + 1

/-- `RESET_KIND` (R8, R260). Open; log entry 13. -/
opaque resetKind : ResetKind

/-- Free value: `ALPHA(62)` and `ALPHA(63)`, which R96 does not define. Log entry 6. -/
opaque alphaOpen : Digit → Byte

/-- Free value: `MulAdd62(a, d)` outside the domain of R143. Log entry 7. -/
opaque mulAddOpen : Accum → Digit → Accum

end Sys2Proof.Config
end

