-- ==== Sys2Proof/Machine/State.lean ====
section
/-! DEFINITION. The state of one B62 instance (10_state.md R20), the host's moves still to come and the replies it
has had, the reasons a step stops, and reset (R35). -/

namespace Sys2Proof.Machine

/-- Why the machine stops. The block itself never stops (R280): both reasons need a state that no run reaches. -/
inductive Fault where
  /-- Raised by `ENC_DIV` when `DCNT` names no entry of `DS[0..42]`, and by `ENC_REV` when `DCNT - 1 - IDX` names
  none or `IDX >= DCNT`: R146 says these are never computed. Safe: the machine stops where the spec says nothing;
  log entry 5. -/
  | digitIndex
  /-- Raised by `ENC_REV` and `DEC_MAC` when `IDX` names no entry of `C[0..42]`: R146 says this is never computed.
  Safe, as above; log entry 5. -/
  | charIndex
  deriving DecidableEq, Repr

/-- Why a step has no meaning. -/
inductive Refusal where
  /-- Raised by no instruction: the name for an arm that is not modelled yet. Safe. -/
  | notModelled (mnemonic : String)
  /-- Raised by a script item that asks for an access wider than 8 bits, which the block does not define and
  "a model that wants to be safe refuses" (R66, R280). Safe; log entry 9. -/
  | wideAccess
  deriving DecidableEq, Repr

/-- Sizes of access the block does not define (R66). -/
inductive WideSize where
  | bits16
  | bits32
  | bits64
  deriving DecidableEq, Repr

/-- One entry of the total order of steps that the world outside asks for (R9, R71, R280). -/
inductive Move where
  /-- A one-byte host access, written as its TX16 word (R102). -/
  | access (w : TxWord)
  /-- `WAIT` (R101): read `STATUS` until its bit 0 is 0. -/
  | poll
  /-- `GETC` (R101): read `CLEN`, then as many characters as the value read says. -/
  | getC
  /-- A test of `STATUS.ERR` (R101, R270): read `STATUS`, and stop the script if its `ERR` field is not 0. -/
  | test
  /-- A turn of the core: one core step stands here in the order (R71, R122). -/
  | core
  /-- The reset input is applied (R260). -/
  | reset
  /-- An access wider than 8 bits (R66). -/
  | wide (size : WideSize)
  deriving DecidableEq, Repr

/-- "The complete state of one `B62` instance is the following, and nothing else" (R20). -/
structure Regs where
  /-- `B[0..31]`, the byte buffer (R21). -/
  b : Vector Byte 32
  /-- `BLEN`, the byte-sequence length (R22). -/
  blen : Byte
  /-- `CLEN`, the string length (R24). -/
  clen : Byte
  /-- `STATUS` (R26). -/
  status : Byte
  /-- `C[0..42]`, the character buffer (R23). -/
  c : Vector Byte 43
  /-- `PH`, the phase (R28). -/
  ph : Phase
  /-- `ACC`, the accumulator (R30). -/
  acc : Accum
  /-- `DS[0..42]`, the digit accumulator (R31). -/
  ds : Vector Digit 43
  /-- `DCNT`, the number of valid entries of `DS` (R32). -/
  dcnt : Count
  /-- `IDX`, the number of characters done (R29). -/
  idx : Count
  deriving DecidableEq, Repr

/-- The block, the moves still to come, oldest first, and the bytes the host's reads have returned, newest
first. The two lists are the model's own; log entries 1 and 8. -/
structure State where
  regs : Regs
  script : List Move
  replies : List Byte
  deriving DecidableEq, Repr

/-- "After reset every register holds zero" (R35). -/
def Regs.reset : Regs where
  b := Vector.replicate 32 0#8
  blen := 0#8
  clen := 0#8
  status := 0#8
  c := Vector.replicate 43 0#8
  ph := Config.phIdle
  acc := 0#257
  ds := Vector.replicate 43 0#6
  dcnt := 0#6
  idx := 0#6

/-- The machine right after reset (R35, R260): no move is placed and nothing has been read. -/
def State.reset : State where
  regs := Regs.reset
  script := []
  replies := []

end Sys2Proof.Machine
end

