-- ==== Sys2Proof/Machine/Flags.lean ====
section
/-! DEFINITION. The fields of `STATUS` (10_state.md R26), the error kinds (60_exceptions.md R220, R221) and the
values the block writes to `STATUS`. -/

namespace Sys2Proof.Machine

/-- "The block raises exactly four errors" (R220). -/
inductive ErrKind where
  | invalidLength
  | invalidCharacter
  | overflow
  | illegalCommand
  deriving DecidableEq, Repr

/-- The `ERR` code of a kind (R221). -/
def ErrKind.code : ErrKind → BitVec 3
  | .invalidLength => 1#3
  | .invalidCharacter => 2#3
  | .overflow => 3#3
  | .illegalCommand => 4#3

/-- Bit 0 of `STATUS`, `BUSY` (R26). -/
def statusBusy (v : Byte) : Bool := v.getLsbD 0

/-- Bit 1 of `STATUS`, `DONE` (R26). -/
def statusDone (v : Byte) : Bool := v.getLsbD 1

/-- Bits 4:2 of `STATUS`, `ERR` (R26). -/
def statusErr (v : Byte) : BitVec 3 := v.extractLsb' 2 3

/-- Bits 7:5 of `STATUS`, reserved (R26). -/
def statusReserved (v : Byte) : BitVec 3 := v.extractLsb' 5 3

/-- `STATUS` written at the acceptance of a command that goes in flight: `BUSY` alone (R26, R163, R194). -/
def statusInFlight : Byte := 0b000#3 ++ 0b000#3 ++ 0b0#1 ++ 0b1#1

/-- `STATUS` written at a success completion: `DONE` alone (R127). -/
def statusSuccess : Byte := 0b000#3 ++ 0b000#3 ++ 0b1#1 ++ 0b0#1

/-- `STATUS` written at an error completion: `{0b000, k[2:0], 0b1, 0b0}` (R228). -/
def statusError (k : ErrKind) : Byte := 0b000#3 ++ k.code ++ 0b1#1 ++ 0b0#1

end Sys2Proof.Machine
end

