-- ==== Sys2Proof/Machine/Operands.lean ====
section
/-! DEFINITION. The pure functions of the rules (00_scope.md R14): the assembly of the integer operand and the
rendering of the byte result (R68, R95), the alphabet (R96, R97), the arithmetic (R141, R143). -/

namespace Sys2Proof.Machine

/-- The value of a list of places, most significant first (R68, R69). -/
def ofPlaces (base : Nat) (l : List Nat) : Nat := l.foldl (fun v d => base * v + d) 0

/-- `BytesToNat(B, n)` (R68): `B[0..n-1]`, `B[0]` most significant; 0 when `n = 0`. For `n` above 32: log entry 20. -/
def bytesToNat (b : Vector Byte 32) (n : Nat) : Nat :=
  ofPlaces 256 ((b.toList.take n).map BitVec.toNat)

/-- `NatToBytes32(v)[i] = (v div 256^(31-i)) mod 256` (R95), which R95 defines for `v < 2^256`. DESIGN CHOICE: for larger
`v` the same formula, that is the low 256 bits (log entry 21). -/
def natToBytes32 (v : Nat) : Vector Byte 32 :=
  Vector.ofFn fun i => BitVec.ofNat 8 (v / 256 ^ (31 - i.val) % 256)

/-- The register form of the same: `B[i] <- ACC[8*(31-i)+7 : 8*(31-i)]` (R95, R198). -/
def accToBytes (a : Accum) : Vector Byte 32 :=
  Vector.ofFn fun i => a.extractLsb' (8 * (31 - i.val)) 8

/-- `ALPHA(d)` (R96), digit value to character code; a free value at 62 and 63 (log entry 6). -/
def alpha (d : Digit) : Byte :=
  if d.toNat ≤ 25 then BitVec.ofNat 8 (0x41 + d.toNat)
  else if d.toNat ≤ 51 then BitVec.ofNat 8 (0x61 + (d.toNat - 26))
  else if d.toNat ≤ 61 then BitVec.ofNat 8 (0x30 + (d.toNat - 52))
  else Config.alphaOpen d

/-- `DIGIT(c)` (R97), character code to digit value; `none` is the rule's `NONE`. -/
def digitOf (c : Byte) : Option Digit :=
  if 0x41 ≤ c.toNat ∧ c.toNat ≤ 0x5A then some (BitVec.ofNat 6 (c.toNat - 0x41))
  else if 0x61 ≤ c.toNat ∧ c.toNat ≤ 0x7A then some (BitVec.ofNat 6 (c.toNat - 0x61 + 26))
  else if 0x30 ≤ c.toNat ∧ c.toNat ≤ 0x39 then some (BitVec.ofNat 6 (c.toNat - 0x30 + 52))
  else none

/-- `DivMod62(a)` (R141): quotient and remainder by the constant 62. -/
def divMod62 (a : BitVec 256) : BitVec 256 × Digit :=
  (BitVec.ofNat 256 (a.toNat / Config.radix), BitVec.ofNat 6 (a.toNat % Config.radix))

/-- `MulAdd62(a, d) = 62*a + d`, defined for `a < 62^42` and `d <= 61` (R143); outside that a free value (log
entry 7). -/
def mulAdd62 (a : Accum) (d : Digit) : Accum :=
  if a.toNat < Config.radix ^ 42 ∧ d.toNat ≤ 61 then BitVec.ofNat 257 (Config.radix * a.toNat + d.toNat)
  else Config.mulAddOpen a d

end Sys2Proof.Machine
end

