-- ==== Sys2Proof/Machine/Ops.lean ====
section
/-! DEFINITION. The shared operations on the registers: reading and writing a buffer entry, the register space as
the host sees it (20_memory.md R61 to R65), error completion (60_exceptions.md R228), success completion
(40_commands.md R127) and reset (70_reset_and_hazards.md R260). -/

namespace Sys2Proof.Machine

/-- `PH = IDLE`: no operation is in flight (R64). -/
def Regs.idle (r : Regs) : Bool := r.ph == Config.phIdle

/-- `DS[k]`, where there is such an entry (R31). -/
def Regs.digitAt (r : Regs) (k : Nat) : Option Digit := r.ds[k]?

/-- `DS[k] <- d`, where there is such an entry (R31). -/
def Regs.setDigit (r : Regs) (k : Nat) (d : Digit) : Option Regs :=
  if h : k < 43 then some { r with ds := r.ds.set k d h } else none

/-- `C[j]`, where there is such an entry (R23). -/
def Regs.charAt (r : Regs) (j : Nat) : Option Byte := r.c[j]?

/-- `C[j] <- v`, where there is such an entry (R23). -/
def Regs.setChar (r : Regs) (j : Nat) (v : Byte) : Option Regs :=
  if h : j < 43 then some { r with c := r.c.set j v h } else none

/-- The register space as a host reads it while `PH = IDLE` (R61, R62): `CMD` and the reserved offsets read 0x00. -/
def Regs.peek (r : Regs) (a : Offset) : Byte :=
  if h : a.toNat < 32 then r.b[a.toNat]
  else if a = Config.blenOffset then r.blen
  else if a = Config.clenOffset then r.clen
  else if a = Config.statusOffset then r.status
  else if h : Config.cBase ≤ a.toNat ∧ a.toNat - Config.cBase < 43 then r.c[a.toNat - Config.cBase]'h.2
  else 0#8

/-- The plain stores of R63: `B`, `BLEN`, `CLEN` and `C` take the value; `STATUS` and the reserved offsets ignore
it (R65). `CMD` has no storage (R25): its write is the acceptance event, see `hostWrite`. -/
def Regs.poke (r : Regs) (a : Offset) (v : Byte) : Regs :=
  if h : a.toNat < 32 then { r with b := r.b.set a.toNat v h }
  else if a = Config.blenOffset then { r with blen := v }
  else if a = Config.clenOffset then { r with clen := v }
  else if h : Config.cBase ≤ a.toNat ∧ a.toNat - Config.cBase < 43 then
    { r with c := r.c.set (a.toNat - Config.cBase) v h.2 }
  else r

/-- What a host read returns (R62 while `PH = IDLE`, R64 while an operation is in flight). -/
def Regs.hostRead (r : Regs) (a : Offset) : Byte :=
  if r.idle then r.peek a
  else if a = Config.statusOffset then r.status
  else 0#8

/-- `raise k`, the block's trap entry: "performs, as the whole effect of the step that raises it", a write of
`STATUS` and of `PH`, "and nothing else" (R228). -/
def Regs.raise (r : Regs) (k : ErrKind) : Regs :=
  { r with status := statusError k, ph := Config.phIdle }

/-- Success completion: `STATUS <- 0x02` and `PH <- IDLE` (R127). There is no return instruction and nothing to
restore after either completion (R229). -/
def Regs.complete (r : Regs) : Regs :=
  { r with status := statusSuccess, ph := Config.phIdle }

/-- A step of the block leaves the host's moves and replies alone. -/
def State.setRegs (s : State) (r : Regs) : State := { s with regs := r }

/-- The byte a read returns reaches the host (R62). -/
def State.reply (s : State) (v : Byte) : State := { s with replies := v :: s.replies }

/-- The reset input (R260): every register at its reset value. The host keeps its script and what it has read
(log entry 19). -/
def State.applyReset (s : State) : State := s.setRegs Regs.reset

end Sys2Proof.Machine
end

