-- ==== Sys2Proof/Machine/Commands.lean ====
section
/-! DEFINITION. The commands `ENC` and `DEC`: acceptance (40_commands.md R121, 42_encode.md R162 and R163,
43_decode.md R192 and R194) and the busy gate (20_memory.md R64). -/

namespace Sys2Proof.Machine

/-- `accept_ENC`, load (R163). -/
def Regs.loadEnc (r : Regs) : Regs :=
  { r with
    acc := BitVec.ofNat 257 (bytesToNat r.b r.blen.toNat)
    dcnt := 0#6
    idx := 0#6
    status := statusInFlight
    ph := Config.phEncDiv }

/-- `accept_ENC`: the length check (R162), then the load (R163). -/
def Regs.acceptEnc (r : Regs) : Regs :=
  if 32 < r.blen.toNat then r.raise .invalidLength else r.loadEnc

/-- `accept_DEC`, start (R194). -/
def Regs.startDec (r : Regs) : Regs :=
  { r with
    acc := 0#257
    idx := 0#6
    dcnt := 0#6
    status := statusInFlight
    ph := if r.clen = 0#8 then Config.phDecChk else Config.phDecMac }

/-- `accept_DEC`: the length check (R192), then the start (R194). -/
def Regs.acceptDec (r : Regs) : Regs :=
  if 43 < r.clen.toNat then r.raise .invalidLength else r.startDec

/-- Acceptance of a write of `v` to `CMD` while `PH = IDLE` (R121); a reserved code raises `IllegalCommand`
(R92, R125). -/
def Regs.accept (r : Regs) (v : Byte) : Regs :=
  if v = Config.opEnc then r.acceptEnc
  else if v = Config.opDec then r.acceptDec
  else r.raise .illegalCommand

/-- A command written while an operation is in flight is dropped (R64, R121). -/
def Regs.gated (r : Regs) (f : Regs → Regs) : Regs := if r.idle then f r else r

/-- `ENC` (R123): its acceptance step; the core steps that follow are `ENC_DIV` and `ENC_REV` (log entry 12). -/
def execEnc (s : State) : Host.Outcome State Fault Refusal :=
  .next (s.setRegs (s.regs.gated Regs.acceptEnc))

/-- `DEC` (R124): its acceptance step; the core steps that follow are `DEC_MAC` and `DEC_CHK` (log entry 12). -/
def execDec (s : State) : Host.Outcome State Fault Refusal :=
  .next (s.setRegs (s.regs.gated Regs.acceptDec))

end Sys2Proof.Machine
end

