-- ==== Sys2Proof/Machine/DecodeOp.lean ====
section
/-! DEFINITION. The core steps of a decode operation: `DEC_MAC` (43_decode.md R195) and `DEC_CHK` (R198). -/

namespace Sys2Proof.Machine

/-- `DEC_MAC` (R195): one character is looked up and folded into `ACC`, or raises `InvalidCharacter`. -/
def execDecMac (s : State) : Host.Outcome State Fault Refusal :=
  let r := s.regs
  match r.charAt r.idx.toNat with
  | none => .fault .charIndex
  | some ch =>
    match digitOf ch with
    | none => .next (s.setRegs (r.raise .invalidCharacter))
    | some d =>
      .next (s.setRegs { r with
        acc := mulAdd62 r.acc d
        idx := r.idx + 1#6
        ph := if r.idx.toNat + 1 = r.clen.toNat then Config.phDecChk else r.ph })

/-- `DEC_CHK` (R198): bit 256 of `ACC` raises `Overflow`; otherwise all of `B` and `BLEN` are written at once and
the operation completes. -/
def execDecChk (s : State) : Host.Outcome State Fault Refusal :=
  let r := s.regs
  if r.acc.getLsbD 256 then .next (s.setRegs (r.raise .overflow))
  else .next (s.setRegs { r with b := accToBytes r.acc, blen := 32#8 }.complete)

end Sys2Proof.Machine
end

