-- ==== Sys2Proof/Machine/Encode.lean ====
section
/-! DEFINITION. The core steps of an encode: `ENC_DIV` (42_encode.md R165) and `ENC_REV` (R168). -/

namespace Sys2Proof.Machine

/-- `ENC_DIV` (R165): the remainder is appended to `DS`, the quotient replaces `ACC`, and the exit test is on the
quotient of this step. -/
def execEncDiv (s : State) : Host.Outcome State Fault Refusal :=
  let r := s.regs
  let qr := divMod62 (r.acc.extractLsb' 0 256)
  match r.setDigit r.dcnt.toNat qr.2 with
  | none => .fault .digitIndex
  | some r' =>
    .next (s.setRegs { r' with
      dcnt := r.dcnt + 1#6
      acc := qr.1.setWidth 257
      idx := if qr.1 = 0#256 then 0#6 else r.idx
      ph := if qr.1 = 0#256 then Config.phEncRev else r.ph })

/-- `ENC_REV` (R168): one digit, from the most significant down, becomes one character; the last iteration writes
`CLEN` and completes. -/
def execEncRev (s : State) : Host.Outcome State Fault Refusal :=
  let r := s.regs
  if r.idx.toNat < r.dcnt.toNat then
    match r.digitAt (r.dcnt.toNat - 1 - r.idx.toNat) with
    | none => .fault .digitIndex
    | some d =>
      match r.setChar r.idx.toNat (alpha d) with
      | none => .fault .charIndex
      | some r' =>
        if r.idx.toNat + 1 = r.dcnt.toNat then
          .next (s.setRegs { r' with idx := r.idx + 1#6, clen := r.dcnt.setWidth 8 }.complete)
        else
          .next (s.setRegs { r' with idx := r.idx + 1#6 })
  else .fault .digitIndex

end Sys2Proof.Machine
end

