-- ==== Sys2Proof/Machine/HostAccess.lean ====
section
/-! DEFINITION. The host transactions `WR` (20_memory.md R63) and `RD` (R62), with the busy gate (R64). -/

namespace Sys2Proof.Machine

/-- A host write while `PH = IDLE` (R63): the write of `CMD` is the acceptance event (R121), every other offset
is a plain store or ignored. -/
def Regs.idleWrite (r : Regs) (a : Offset) (v : Byte) : Regs :=
  if a = Config.cmdOffset then r.accept v else r.poke a v

/-- `WR a, v` (R63); dropped while an operation is in flight (R64). -/
def execWr (a : Offset) (v : Byte) (s : State) : Host.Outcome State Fault Refusal :=
  .next (s.setRegs (s.regs.gated fun r => r.idleWrite a v))

/-- `RD a` (R62, R64): the byte reaches the host and the block does not change. -/
def execRd (a : Offset) (s : State) : Host.Outcome State Fault Refusal :=
  .next (s.reply (s.regs.hostRead a))

end Sys2Proof.Machine
end

