-- ==== Sys2Proof/Syntax.lean ====
section
/-! DEFINITION. The instructions: one constructor per row of spec/opcode_table.json (30_encoding.md R103). -/

namespace Sys2Proof

/-- The eight rows of the opcode table (R103). -/
inductive Instr where
  /-- Command `ENC`, format CMD8, code 0x01 (R91, R123). -/
  | enc
  /-- Command `DEC`, format CMD8, code 0x02 (R91, R124). -/
  | dec
  /-- Core step `ENC_DIV`, selected by `PH = 1` (R100, R165). -/
  | encDiv
  /-- Core step `ENC_REV`, selected by `PH = 2` (R100, R168). -/
  | encRev
  /-- Core step `DEC_MAC`, selected by `PH = 3` (R100, R195). -/
  | decMac
  /-- Core step `DEC_CHK`, selected by `PH = 4` (R100, R198). -/
  | decChk
  /-- Host transaction `WR a, v`: `MemWrite(a, 1, v)` (R63, R101, R102). -/
  | wr (a : Offset) (v : Byte)
  /-- Host transaction `RD a`: `MemRead(a, 1)` (R62, R101, R102). -/
  | rd (a : Offset)
  deriving DecidableEq, Repr

end Sys2Proof
end

