-- ==== Sys2Proof/Machine/Dispatch.lean ====
section
/-! DEFINITION. One arm per instruction, each a call of its meaning. -/

namespace Sys2Proof.Machine

def exec (i : Instr) (s : State) : Host.Outcome State Fault Refusal :=
  match i with
  | .enc => Sys2Proof.Machine.execEnc s
  | .dec => Sys2Proof.Machine.execDec s
  | .encDiv => Sys2Proof.Machine.execEncDiv s
  | .encRev => Sys2Proof.Machine.execEncRev s
  | .decMac => Sys2Proof.Machine.execDecMac s
  | .decChk => Sys2Proof.Machine.execDecChk s
  | .wr a v => Sys2Proof.Machine.execWr a v s
  | .rd a => Sys2Proof.Machine.execRd a s

end Sys2Proof.Machine
end

