-- ==== Sys2Proof/WellFormed.lean ====
section
/-! DEFINITION. Well-formed instructions. The operand widths are carried by the types (an offset has 7 bits, a
value 8: R102); what is left to check is that an instruction goes by its one name. -/

namespace Sys2Proof

/-- `v` is one of the two command codes of R91. -/
def isCommandCode (v : Byte) : Bool := v == Config.opEnc || v == Config.opDec

/-- An instruction goes by its own name: "a command is the 8-bit value written to offset 0x22" (R90), so a write
of a command code there is `ENC` or `DEC` (R101) and is not spelled as a plain `WR`. A write of a reserved code
there is a plain `WR` (R92: it selects no operation). -/
def Instr.wf : Instr → Bool
  | .enc => true
  | .dec => true
  | .encDiv => true
  | .encRev => true
  | .decMac => true
  | .decChk => true
  | .wr a v => !(a == Config.cmdOffset && isCommandCode v)
  | .rd _ => true

end Sys2Proof
end

