-- ==== Sys2Proof/Decode.lean ====
section
/-! DEFINITION. The decoder of the three encodings of 30_encoding.md (CMD8 R90, PH3 R100, TX16 R102), total on
every code and rejecting by name, and after it the encoder. -/

namespace Sys2Proof

/-- An encoded instruction in one of the three formats: what a host writes to `CMD` (R90), what `PH` holds (R100),
what a line of a host script is written as (R102). The formats live in different places, so a code says its
own format. -/
inductive Code where
  | cmd8 (op : Byte)
  | ph3 (p : Phase)
  | tx16 (w : TxWord)
  deriving DecidableEq, Repr

/-- Why a code names no instruction. -/
inductive DecodeError where
  /-- CMD8 0x00 and 0x03 to 0xFF select no operation (R92). -/
  | reservedCommand (op : Byte)
  /-- `PH = IDLE` selects no step (R100). -/
  | idlePhase
  /-- `PH` 5 to 7 select no step (R37, R100). -/
  | unusedPhase (p : Phase)
  deriving DecidableEq, Repr

/-- CMD8 (R90, R91): all 8 bits are compared (mask 0xFF). -/
def decodeCommand (op : Byte) : Except DecodeError Instr :=
  if op = Config.opEnc then .ok .enc
  else if op = Config.opDec then .ok .dec
  else .error (.reservedCommand op)

/-- PH3 (R100): the step `PH` selects. -/
def decodePhase (p : Phase) : Except DecodeError Instr :=
  if p = Config.phEncDiv then .ok .encDiv
  else if p = Config.phEncRev then .ok .encRev
  else if p = Config.phDecMac then .ok .decMac
  else if p = Config.phDecChk then .ok .decChk
  else if p = Config.phIdle then .error .idlePhase
  else .error (.unusedPhase p)

/-- Field `W` of TX16 (R102): 1 write, 0 read. -/
def txIsWrite (w : TxWord) : Bool := w.getLsbD 15

/-- Field `A[14:8]` of TX16 (R102). -/
def txOffset (w : TxWord) : Offset := w.extractLsb' 8 7

/-- Field `V[7:0]` of TX16 (R102). -/
def txValue (w : TxWord) : Byte := w.extractLsb' 0 8

/-- TX16 (R102): every word decodes to a transaction; a read ignores `V`. -/
def decodeTx (w : TxWord) : Instr :=
  if txIsWrite w then .wr (txOffset w) (txValue w) else .rd (txOffset w)

/-- The decoder. -/
def decode : Code → Except DecodeError Instr
  | .cmd8 op => decodeCommand op
  | .ph3 p => decodePhase p
  | .tx16 w => .ok (decodeTx w)

/-- The one name of an instruction: a write of a command code to `CMD` is the command (R90, R101). Log entry 14. -/
def commandName : Instr → Instr
  | .enc => .enc
  | .dec => .dec
  | .encDiv => .encDiv
  | .encRev => .encRev
  | .decMac => .decMac
  | .decChk => .decChk
  | .wr a v =>
    if a = Config.cmdOffset then
      match decodeCommand v with
      | .ok i => i
      | .error _ => .wr a v
    else .wr a v
  | .rd a => .rd a

/-- The instruction a line of a host script stands for (R101, R102). -/
def hostInstr (w : TxWord) : Instr := commandName (decodeTx w)

/-- `WR a, v` is `0x8000 | (a << 8) | v` (R102). -/
def encodeWr (a : Offset) (v : Byte) : TxWord :=
  0x8000#16 ||| (a.setWidth 16 <<< 8) ||| v.setWidth 16

/-- `RD a` is `a << 8` (R102: the `V` field of a read is written as 0x00). -/
def encodeRd (a : Offset) : TxWord := a.setWidth 16 <<< 8

/-- The code of an instruction in its own format (R91, R100, R102). -/
def encode : Instr → Code
  | .enc => .cmd8 Config.opEnc
  | .dec => .cmd8 Config.opDec
  | .encDiv => .ph3 Config.phEncDiv
  | .encRev => .ph3 Config.phEncRev
  | .decMac => .ph3 Config.phDecMac
  | .decChk => .ph3 Config.phDecChk
  | .wr a v => .tx16 (encodeWr a v)
  | .rd a => .tx16 (encodeRd a)

/-- The script line of an instruction the host can issue (R101); the core's steps have none. -/
def scriptWord : Instr → Option TxWord
  | .enc => some (encodeWr Config.cmdOffset Config.opEnc)
  | .dec => some (encodeWr Config.cmdOffset Config.opDec)
  | .encDiv => none
  | .encRev => none
  | .decMac => none
  | .decChk => none
  | .wr a v => some (encodeWr a v)
  | .rd a => some (encodeRd a)

/-- The instruction of a code, `none` where the decoder rejects it. -/
def decode? (c : Code) : Option Instr :=
  match decode c with
  | .ok i => some i
  | .error _ => none

/-- The code that `nbits` bits of the opcode table stand for. 16 bits are a TX16 word. 8 bits are a CMD8 byte
where a CMD8 row matches it under its mask 0xFF, else the PH3 code of its low three bits where a PH3 row matches
those under its mask 0x7, else the (reserved) CMD8 byte. Fewer bits are a PH3 code. Log entry 11: in 8 bits
the words 1 and 2 match a row of each format, and the table's order is followed. -/
def tableCode (nbits w : Nat) : Option Code :=
  if nbits = 16 then some (.tx16 (BitVec.ofNat 16 w))
  else if nbits = 8 then
    match decode? (.cmd8 (BitVec.ofNat 8 w)), decode? (.ph3 (BitVec.ofNat 3 w)) with
    | some _, _ => some (.cmd8 (BitVec.ofNat 8 w))
    | none, some _ => some (.ph3 (BitVec.ofNat 3 w))
    | none, none => some (.cmd8 (BitVec.ofNat 8 w))
  else if nbits < 8 then some (.ph3 (BitVec.ofNat 3 w))
  else none

/-- The instruction the decoder reads from a word of the opcode table. -/
def decodeTableWord (nbits w : Nat) : Option Instr :=
  match tableCode nbits w with
  | some c => decode? c
  | none => none

end Sys2Proof
end

