-- ==== Sys2Proof/Machine/Fetch.lean ====
section
/-! DEFINITION. Which step comes next: the head of the script (20_memory.md R71, 70_reset_and_hazards.md R280), or
the core's enabled step when the script is empty (40_commands.md R122, R279). -/

namespace Sys2Proof.Machine

/-- What a step is to do. -/
inductive Turn where
  /-- Run an instruction from a state. -/
  | run (i : Instr) (s : State)
  /-- Go on to a state without an instruction. -/
  | quiet (s : State)
  /-- Refuse. -/
  | refuse (r : Refusal)
  deriving DecidableEq, Repr

/-- A turn of the core: the step `PH` selects (R100, R122). With `PH = IDLE` the core has none and with `PH` 5 to 7
it is stuck (R37): the turn changes nothing (log entries 3 and 4). -/
def coreTurn (s : State) : Turn :=
  match decode (.ph3 s.regs.ph) with
  | .ok i => .run i s
  | .error _ => .quiet s

/-- What a poll of `WAIT` leaves of the script (R101): it is repeated while the value read has `BUSY = 1`, with one
turn of the core before the next read (log entry 16). -/
def afterPoll (r : Regs) (rest : List Move) : List Move :=
  if statusBusy (r.hostRead Config.statusOffset) then .core :: .poll :: rest else rest

/-- The lines `RD` of `n` consecutive offsets from `a` (R101). Offsets have 7 bits (R102). -/
def linesRd : Nat → Nat → List Move
  | _, 0 => []
  | a, n + 1 => .access (encodeRd (BitVec.ofNat 7 a)) :: linesRd (a + 1) n

/-- What `GETC` leaves of the script (R101): `RD 0x40` to `RD 0x40+n-1`, `n` the value its read of `CLEN` returns. The
lines end at offset 0x7F, the last there is (log entry 24). -/
def afterGetC (r : Regs) (rest : List Move) : List Move :=
  linesRd Config.cBase (min (r.hostRead Config.clenOffset).toNat 64) ++ rest

/-- What a test of `STATUS.ERR` leaves of the script (R270 step 5): with an error the host stops (log entry 25). -/
def afterTest (r : Regs) (rest : List Move) : List Move :=
  if statusErr (r.hostRead Config.statusOffset) = 0#3 then rest else []

/-- The next step of the total order (R71). -/
def nextTurn (s : State) : Turn :=
  match s.script with
  | [] => coreTurn s
  | .core :: rest => coreTurn { s with script := rest }
  | .access w :: rest => .run (hostInstr w) { s with script := rest }
  | .poll :: rest => .run (.rd Config.statusOffset) { s with script := afterPoll s.regs rest }
  | .getC :: rest => .run (.rd Config.clenOffset) { s with script := afterGetC s.regs rest }
  | .test :: rest => .run (.rd Config.statusOffset) { s with script := afterTest s.regs rest }
  | .reset :: rest => .quiet (State.applyReset { s with script := rest })
  | .wide _ :: _ => .refuse .wideAccess

/-- Places a code where the next step finds it: a transaction or a command at the head of the script, a phase
number in `PH` with a turn of the core at the head (log entry 11). -/
def place (s : State) : Code → State
  | .tx16 w => { s with script := .access w :: s.script }
  | .cmd8 op => { s with script := .access (encodeWr Config.cmdOffset op) :: s.script }
  | .ph3 p => { s with regs := { s.regs with ph := p }, script := .core :: s.script }

end Sys2Proof.Machine
end

