-- ==== Sys2Proof/Machine/Step.lean ====
section
/-! DEFINITION. One step of the machine, and where the host of this package places a word. -/

namespace Sys2Proof.Machine

/-- Performs a turn. -/
def Turn.perform : Turn → Host.Outcome State Fault Refusal
  | .run i s => exec i s
  | .quiet s => .next s
  | .refuse r => .refused r

/-- One atomic step of the total order (20_memory.md R71). -/
def step (s : State) : Host.Outcome State Fault Refusal := (nextTurn s).perform

/-- `s` with a word of the opcode table placed as the next step's instruction (log entry 11). -/
def State.withFetchWord (s : State) (nbits w : Nat) : State :=
  match tableCode nbits w with
  | some c => place s c
  | none => s

end Sys2Proof.Machine
end

