-- ==== Sys2Proof/Machine/Script.lean ====
section
/-! DEFINITION. Host scripts (30_encoding.md R101): the pseudo-operations, their expansion into moves, the two
library calls as scripts, and the host protocol (70_reset_and_hazards.md R270). -/

namespace Sys2Proof.Machine

/-- The pseudo-operations of R101, and the test of `STATUS.ERR` that follows a library call. -/
inductive Pseudo where
  | enc
  | dec
  | wait
  | setB (bytes : List Byte)
  | setC (codes : List Byte)
  | getC
  | getB
  | test
  deriving DecidableEq, Repr

/-- The bounds R101 puts on a pseudo-operation: `n <= 32` bytes, `n <= 43` characters. `Pseudo.expand` does not test them
(log entry 26). -/
def Pseudo.wf : Pseudo → Bool
  | .enc => true
  | .dec => true
  | .wait => true
  | .setB bytes => bytes.length ≤ Config.nbytes
  | .setC codes => codes.length ≤ Config.maxChars
  | .getC => true
  | .getB => true
  | .test => true

/-- The script line `WR a, v` (R101), for an `a` of 7 bits; of a larger one the low 7 bits (log entry 26). -/
def lineWr (a : Nat) (v : Byte) : Move := .access (encodeWr (BitVec.ofNat 7 a) v)

/-- `WR` of a list of values to consecutive offsets. -/
def linesWr : Nat → List Byte → List Move
  | _, [] => []
  | a, v :: vs => lineWr a v :: linesWr (a + 1) vs

/-- The expansion of a pseudo-operation (R101). DESIGN CHOICE: `SETB` of more than 32 bytes and `SETC` of more than 43
characters, for which R101 has no expansion, write on to the offsets that follow, modulo 128, and then the length's low
8 bits (log entry 26). -/
def Pseudo.expand : Pseudo → List Move
  | .enc => [lineWr 0x22 Config.opEnc]
  | .dec => [lineWr 0x22 Config.opDec]
  | .wait => [.poll]
  | .setB bytes => linesWr 0x00 bytes ++ [lineWr 0x20 (BitVec.ofNat 8 bytes.length)]
  | .setC codes => linesWr 0x40 codes ++ [lineWr 0x21 (BitVec.ofNat 8 codes.length)]
  | .getC => [.getC]
  | .getB => linesRd 0x00 32
  | .test => [.test]

/-- A script of pseudo-operations. -/
def expandAll (l : List Pseudo) : List Move := (l.map Pseudo.expand).flatten

/-- `encodeBytes(data)` (R101): `SETB data; ENC; WAIT; GETC`, followed by a test of `STATUS.ERR`. Data of
more than 32 bytes: log entry 26. -/
def encodeBytes (data : List Byte) : List Move := expandAll [.setB data, .enc, .wait, .getC, .test]

/-- `decodeBytes(text)` (R101): `SETC text; DEC; WAIT; GETB`, followed by a test of `STATUS.ERR`. Text of
more than 43 characters: log entry 26. -/
def decodeBytes (text : List Byte) : List Move := expandAll [.setC text, .dec, .wait, .getB, .test]

/-- Step 2 of the protocol for an encode (R270): the bytes and their length, or, for data longer than 32 bytes, a
length above the limit alone, clamped to 255. The rule leaves the order of the writes and the value above the limit
free: log entry 29. -/
def loadData (data : List Byte) : List Move :=
  if data.length ≤ Config.nbytes then (Pseudo.setB data).expand
  else [lineWr 0x20 (BitVec.ofNat 8 (min data.length 255))]

/-- Step 2 of the protocol for a decode (R270): the characters and their length, or, for text longer than 43
characters, a length above the limit alone, clamped to 255 (log entry 29). -/
def loadText (text : List Byte) : List Move :=
  if text.length ≤ Config.maxChars then (Pseudo.setC text).expand
  else [lineWr 0x21 (BitVec.ofNat 8 (min text.length 255))]

/-- Steps 2 to 6 of the protocol for an encode (R270): the destination is read only after the test. -/
def encodeProtocol (data : List Byte) : List Move := loadData data ++ expandAll [.enc, .wait, .test, .getC]

/-- Steps 2 to 6 of the protocol for a decode (R270). -/
def decodeProtocol (text : List Byte) : List Move := loadText text ++ expandAll [.dec, .wait, .test, .getB]

end Sys2Proof.Machine
end

