-- ==== Sys2Proof/Machine/Whole.lean ====
section
/-! DEFINITION. The operations as a whole: the functions of 42_encode.md R160 and 43_decode.md R190, the
whole-operation pseudocode of 40_commands.md R123 and R124, and the step counts of 70_reset_and_hazards.md R277. -/

namespace Sys2Proof.Machine

/-- The remainders `r[0], r[1], ...` of the repeated division (R142), at most `fuel` of them: the loop stops after
the first division whose quotient is 0, so it runs at least once (R166). -/
def remainders : Nat → Nat → List Nat
  | 0, _ => []
  | fuel + 1, a => a % Config.radix ::
      (if a / Config.radix = 0 then [] else remainders fuel (a / Config.radix))

/-- The digits of `v`, least significant first (R160): 43 divisions suffice below `2^256` (R142), where R142 and R160
define them. DESIGN CHOICE: for larger `v` the remainders are cut off at 43 (log entry 22). -/
def digitsOf (v : Nat) : List Nat := remainders 43 v

/-- `n(v)` (R142), for `v < 2^256`; for larger `v` see `digitsOf` (log entry 22). -/
def digitCount (v : Nat) : Nat := (digitsOf v).length

/-- `EncodeFn(v)` (R160): the remainders reversed and mapped; for `v >= 2^256`, where R160 does not define it, see
`digitsOf` (log entry 22). -/
def encodeFn (v : Nat) : List Byte := (digitsOf v).reverse.map fun d => alpha (BitVec.ofNat 6 d)

/-- The digit of every character, where every character has one (R190). -/
def digitsOfString (s : List Byte) : Option (List Digit) := s.mapM digitOf

/-- The value of a string of digits, most significant first (R69). -/
def stringValue (ds : List Digit) : Nat := ofPlaces Config.radix (ds.map BitVec.toNat)

/-- `DecodeFn(s)` (R190), which R190 defines for at most 43 characters; its two failures are the error kinds of R223
and R224. DESIGN CHOICE: a longer string is folded in the same way (log entry 23). -/
def decodeFn (s : List Byte) : Except ErrKind Nat :=
  match digitsOfString s with
  | none => .error .invalidCharacter
  | some ds => if 2 ^ 256 ≤ stringValue ds then .error .overflow else .ok (stringValue ds)

/-- The byte sequence's value, the operand of `ENC` (R94). For `BLEN` above 32: log entry 20. -/
def Regs.encOperand (r : Regs) : Nat := bytesToNat r.b r.blen.toNat

/-- The string, the operand of `DEC`: `C[0..CLEN-1]` and nothing else (R98). DESIGN CHOICE: for `CLEN` above 43, a length
that "names characters that do not exist" (R192), the 43 characters there are (log entry 27). -/
def Regs.decOperand (r : Regs) : List Byte := r.c.toList.take r.clen.toNat

/-- `C` with its first entries replaced by a string; the rest keep their content (R23). DESIGN CHOICE: of a string longer
than 43 characters the first 43 are taken (log entry 28). -/
def writeString (old : Vector Byte 43) (s : List Byte) : Vector Byte 43 :=
  Vector.ofFn fun j => (s[j.val]?).getD old[j]

/-- The whole of `ENC` (R123). -/
def Regs.wholeEnc (r : Regs) : Regs :=
  if 32 < r.blen.toNat then r.raise .invalidLength
  else
    { r with
      c := writeString r.c (encodeFn r.encOperand)
      clen := BitVec.ofNat 8 (encodeFn r.encOperand).length }.complete

/-- The whole of `DEC` (R124). -/
def Regs.wholeDec (r : Regs) : Regs :=
  if 43 < r.clen.toNat then r.raise .invalidLength
  else
    match decodeFn r.decOperand with
    | .error k => r.raise k
    | .ok v => { r with b := natToBytes32 v, blen := 32#8 }.complete

/-- Core steps of an `ENC` after its acceptance (R128, R277). -/
def Regs.encSteps (r : Regs) : Nat :=
  if 32 < r.blen.toNat then 0 else 2 * digitCount r.encOperand

/-- Index of the first character that is not in the alphabet (R223). -/
def firstBad (s : List Byte) : Option Nat := s.findIdx? fun ch => (digitOf ch).isNone

/-- Core steps of a `DEC` after its acceptance (R128, R277). -/
def Regs.decSteps (r : Regs) : Nat :=
  if 43 < r.clen.toNat then 0
  else
    match firstBad r.decOperand with
    | some k => k + 1
    | none => r.clen.toNat + 1

/-- What the host can see of the block when no operation is in flight, and nothing else (R33). -/
structure HostView where
  b : Vector Byte 32
  blen : Byte
  clen : Byte
  status : Byte
  c : Vector Byte 43
  deriving DecidableEq, Repr

/-- The host-visible registers (R33, R129). -/
def Regs.view (r : Regs) : HostView where
  b := r.b
  blen := r.blen
  clen := r.clen
  status := r.status
  c := r.c

end Sys2Proof.Machine
end

