-- ==== Sys2Proof/Safety.lean ====
section
/-! DEFINITION. What claims call a good state: the invariants the spec states of every reachable state
(10_state.md R26, R27, R36), the invariant the step keeps, and reachability. -/

namespace Sys2Proof.Safety

open Sys2Proof.Machine

/-- The value of `DS[n-1..0]` as base-62 digits, `DS[0]` least significant (R36). -/
def dsValue (ds : Vector Digit 43) (n : Nat) : Nat :=
  ofPlaces Config.radix ((ds.toList.take n).reverse.map BitVec.toNat)

/-- R27: `BUSY = 1` exactly when `PH != IDLE`; `BUSY` and `DONE` are never both 1; `ERR != 0` implies `DONE = 1`;
bits 7:5 are 0. -/
structure StatusRule (r : Regs) : Prop where
  busy : statusBusy r.status = true ↔ r.ph ≠ Config.phIdle
  exclusive : ¬(statusBusy r.status = true ∧ statusDone r.status = true)
  errDone : statusErr r.status ≠ 0#3 → statusDone r.status = true
  reserved : statusReserved r.status = 0#3

/-- R36, clause by clause. -/
structure CounterRule (r : Regs) : Prop where
  dcnt : r.dcnt.toNat ≤ 43
  idx : r.idx.toNat ≤ 43
  encDiv : r.ph = Config.phEncDiv →
    r.blen.toNat ≤ 32 ∧ r.acc.toNat < 2 ^ 256 ∧
    Config.radix ^ r.dcnt.toNat * r.acc.toNat + dsValue r.ds r.dcnt.toNat = bytesToNat r.b r.blen.toNat
  encRev : r.ph = Config.phEncRev →
    1 ≤ r.dcnt.toNat ∧ r.dcnt.toNat ≤ 43 ∧ r.idx.toNat < r.dcnt.toNat ∧ r.acc = 0#257
  decMac : r.ph = Config.phDecMac →
    r.clen.toNat ≤ 43 ∧ r.idx.toNat < r.clen.toNat ∧ r.acc.toNat < Config.radix ^ r.idx.toNat
  decChk : r.ph = Config.phDecChk →
    r.clen.toNat ≤ 43 ∧ r.acc.toNat < Config.radix ^ r.clen.toNat

/-- The invariant every step keeps: R26's list of the values `STATUS` ever holds, R27, R36, the range of the
digits (R31: 62 and 63 are never written), that no unused phase is reached (R37), and what the divide loop
also keeps: the first division has not been made yet or there is something left to divide (R165). -/
structure Inv (r : Regs) : Prop where
  status : StatusRule r
  statusValue : r.status ∈ [0x00#8, 0x01#8, 0x02#8, 0x06#8, 0x0A#8, 0x0E#8, 0x12#8]
  phase : r.ph.toNat ≤ 4
  digits : ∀ k (h : k < 43), (r.ds[k]).toNat ≤ 61
  counters : CounterRule r
  moreToDivide : r.ph = Config.phEncDiv → r.dcnt = 0#6 ∨ r.acc ≠ 0#257

/-- A state of a run from reset: some script of accesses, core turns and resets leads to it (R36: "every state
reachable from reset by host accesses and core steps"). -/
def Reachable (s : State) : Prop :=
  ∃ (moves : List Move) (n : Nat),
    Host.Core.run Sys2Proof.core n { State.reset with script := moves } = .next s

end Sys2Proof.Safety
end

