-- ==== Sys2Proof/Certificates/Slice0/Obligations.lean ====
section
/-! DEFINITION. The statements about B62. Each docstring names the rules of spec/ it formalises. A clause that
rests on a choice of the model names its log entry. -/

open Sys2Proof Sys2Proof.Machine Sys2Proof.Safety

/-! ### Reset -/

/-- R35: after reset every register holds zero; 0x00 is not an alphabet character, and the reset content of `C`
with `CLEN = 0` is the empty string. -/
def Obligations.ResetValues : Prop :=
  (∀ i (h : i < 32), State.reset.regs.b[i] = 0x00#8) ∧ State.reset.regs.blen = 0#8 ∧
  (∀ j (h : j < 43), State.reset.regs.c[j] = 0x00#8) ∧ State.reset.regs.clen = 0#8 ∧
  State.reset.regs.status = 0x00#8 ∧ State.reset.regs.ph = Config.phIdle ∧ State.reset.regs.acc = 0#257 ∧
  (∀ k (h : k < 43), State.reset.regs.ds[k] = 0#6) ∧ State.reset.regs.dcnt = 0#6 ∧ State.reset.regs.idx = 0#6 ∧
  digitOf 0x00#8 = none ∧ State.reset.regs.decOperand = []

/-- R260: the reset input, at any moment, puts every register at its reset value, whatever was in flight. That the
host keeps the rest of its script and its replies is the model's choice (log entry 19). -/
def Obligations.ResetInput : Prop :=
  ∀ (s : State) (rest : List Move), s.script = .reset :: rest →
    step s = .next { regs := Regs.reset, script := rest, replies := s.replies }

/-- R261: right after reset every offset reads 0x00; and `STATUS` never holds 0x00 again once a command has been
accepted: an accepted write of `CMD` leaves it non-zero, and no step but a reset makes it zero. -/
def Obligations.StatusZeroOnlyAfterReset : Prop :=
  (∀ a : Offset, exec (.rd a) State.reset = .next { State.reset with replies := [0x00#8] }) ∧
  (∀ (s t : State) (v : Byte), s.regs.ph = Config.phIdle → exec (.wr Config.cmdOffset v) s = .next t →
    t.regs.status ≠ 0x00#8) ∧
  (∀ s t : State, s.regs.status ≠ 0x00#8 → s.script.head? ≠ some .reset → step s = .next t →
    t.regs.status ≠ 0x00#8)

/-! ### Which step comes next -/

/-- R71, R101: a line of the host's script runs as the instruction its transaction word stands for, from the state
whose script has moved past it. `GETC` runs `RD 0x21` and then the lines `RD 0x40` to `RD 0x40+n-1`, `n` the value that
read returns (no line beyond offset 0x7F: log entry 24). A test of `STATUS.ERR` runs `RD 0x23` and, if bits 4:2 of the
value read are not 0, the host stops (log entry 25). -/
def Obligations.StepRunsHostLine : Prop :=
  (∀ (s : State) (w : TxWord) (rest : List Move), s.script = .access w :: rest →
    step s = exec (hostInstr w) { s with script := rest }) ∧
  (∀ (s : State) (rest : List Move), s.script = .getC :: rest →
    ∃ lines : List Move,
      step s = exec (.rd 0x21#7) { s with script := lines ++ rest } ∧
      lines.length = min (s.regs.hostRead 0x21#7).toNat 64 ∧
      ∀ k, k < lines.length → lines[k]? = some (.access (encodeRd (BitVec.ofNat 7 (0x40 + k))))) ∧
  (∀ (s : State) (rest : List Move), s.script = .test :: rest →
    step s = exec (.rd 0x23#7)
      { s with script := if (s.regs.hostRead 0x23#7).extractLsb' 2 3 = 0#3 then rest else [] })

/-- R100, R122: a turn of the core runs the step `PH` selects; when the script has ended the core goes on by
itself (R279; log entry 2). With `PH = IDLE` the core has no step, and a turn of it changes no register (that such
a step is a next state is the model's choice, log entry 3). -/
def Obligations.StepRunsCoreStep : Prop :=
  (∀ (s : State) (i : Instr), decode (.ph3 s.regs.ph) = .ok i →
    (∀ rest, s.script = .core :: rest → step s = exec i { s with script := rest }) ∧
    (s.script = [] → step s = exec i s)) ∧
  (∀ s : State, s.regs.ph = Config.phIdle →
    (∀ rest, s.script = .core :: rest → step s = .next { s with script := rest }) ∧
    (s.script = [] → step s = .next s))

/-- R37: `PH` 5 to 7 and `ERR` 5 to 7 are never produced; a state with such a `PH` is stuck: no step but a reset
changes a register, so `BUSY` stays as it is (that the stuck core's turn is a next state is the model's choice, log
entry 4). -/
def Obligations.UnusedPhaseIsStuck : Prop :=
  (∀ s : State, Reachable s → s.regs.ph.toNat < 5 ∧ (statusErr s.regs.status).toNat < 5) ∧
  (∀ s t : State, 5 ≤ s.regs.ph.toNat → s.script.head? ≠ some .reset → step s = .next t → t.regs = s.regs) ∧
  (∀ s : State, 5 ≤ s.regs.ph.toNat → (∀ z, s.script.head? ≠ some (.wide z)) → ∃ t, step s = .next t)

/-- R101, `WAIT`: a poll reads `STATUS`; while the value read has bit 0 set the poll is repeated, after one turn of
the core (log entry 16). -/
def Obligations.PollReadsStatus : Prop :=
  ∀ (s : State) (rest : List Move), s.script = .poll :: rest →
    step s = .next { s with
      script := if s.regs.status.getLsbD 0 then .core :: .poll :: rest else rest
      replies := s.regs.status :: s.replies }

/-- R66, R280: an access wider than 8 bits is refused by name, in every state. -/
def Obligations.WideAccessRefused : Prop :=
  ∀ (s : State) (z : WideSize) (rest : List Move), s.script = .wide z :: rest →
    step s = .refused .wideAccess

/-- R280: every 8-bit access, at every offset and at every moment, has an effect: the step answers a next state, and
the rest of the script is still to come. -/
def Obligations.EveryAccessCompletes : Prop :=
  ∀ (s : State) (w : TxWord) (rest : List Move), s.script = .access w :: rest →
    ∃ t, step s = .next t ∧ t.script = rest

/-! ### Encodings -/

/-- R91, R92, R100, R102: words written out from the tables decode to the instructions they stand for, and every
command code but 0x01 and 0x02 is rejected as reserved. -/
def Obligations.DecodeExamples : Prop :=
  decode (.cmd8 0x01#8) = .ok .enc ∧ decode (.cmd8 0x02#8) = .ok .dec ∧
  (∀ op : Byte, op ≠ 0x01#8 → op ≠ 0x02#8 → decode (.cmd8 op) = .error (.reservedCommand op)) ∧
  decode (.ph3 1#3) = .ok .encDiv ∧ decode (.ph3 2#3) = .ok .encRev ∧
  decode (.ph3 3#3) = .ok .decMac ∧ decode (.ph3 4#3) = .ok .decChk ∧
  decode (.ph3 0#3) = .error .idlePhase ∧ decode (.ph3 7#3) = .error (.unusedPhase 7#3) ∧
  decode (.tx16 0xA020#16) = .ok (.wr 0x20#7 0x20#8) ∧ decode (.tx16 0x2300#16) = .ok (.rd 0x23#7) ∧
  decode (.tx16 0x23FF#16) = .ok (.rd 0x23#7) ∧
  hostInstr 0xA201#16 = .enc ∧ hostInstr 0xA202#16 = .dec ∧ hostInstr 0xA200#16 = .wr 0x22#7 0x00#8

/-- R102: `WR a, v` is `0x8000 | (a << 8) | v`, `RD a` is `a << 8`; every 16-bit word decodes to a transaction, and a
read whose `V` field is not zero is still that read. -/
def Obligations.TransactionWords : Prop :=
  (∀ (a : Offset) (v : Byte),
    (encodeWr a v).toNat = 0x8000 + 0x100 * a.toNat + v.toNat ∧
    (encodeRd a).toNat = 0x100 * a.toNat ∧
    decode (.tx16 (0x8000#16 ||| (a.setWidth 16 <<< 8) ||| v.setWidth 16)) = .ok (.wr a v) ∧
    decode (.tx16 ((a.setWidth 16 <<< 8) ||| v.setWidth 16)) = .ok (.rd a)) ∧
  (∀ w : TxWord, ∃ a v, decode (.tx16 w) = .ok (.wr a v) ∨ decode (.tx16 w) = .ok (.rd a))

/-- Decoding and encoding agree, in both directions (R90, R100, R102): every instruction is read back from its
code; a code that is read as an instruction is that instruction's code, but for the `V` field of a read, which is
written as 0x00; and on host lines every instruction is read back from its line under its own name (R90, R101). -/
def Obligations.DecodeEncodeAgree : Prop :=
  (∀ i : Instr, decode (encode i) = .ok i) ∧
  (∀ (c : Code) (i : Instr), decode c = .ok i →
    encode i = c ∨ ∃ w : TxWord, c = .tx16 w ∧ w.getLsbD 15 = false ∧ encode i = .tx16 (w &&& 0xFF00#16)) ∧
  (∀ (i : Instr) (w : TxWord), i.wf = true → scriptWord i = some w → hostInstr w = i) ∧
  (∀ w : TxWord, (hostInstr w).wf = true)

/-! ### The alphabet and the arithmetic -/

/-- R96: `ALPHA(d)` is the character at position `d` of the 62-symbol alphabet, as its ASCII code (the codes are general
knowledge by the spec's own mark, G1). -/
def Obligations.AlphabetOrder : Prop :=
  ∀ d : Digit, d.toNat ≤ 61 →
    ("ABCDEFGHIJKLMNOPQRSTUVWXYZabcdefghijklmnopqrstuvwxyz0123456789".toList[d.toNat]?).map Char.toNat =
      some (alpha d).toNat

/-- R97: `DIGIT` inverts `ALPHA`, on every code: it gives a digit exactly for the 62 characters, and 194 codes
give `NONE`. -/
def Obligations.DigitInvertsAlpha : Prop :=
  (∀ d : Digit, d.toNat ≤ 61 → digitOf (alpha d) = some d) ∧
  (∀ (ch : Byte) (d : Digit), digitOf ch = some d → d.toNat ≤ 61 ∧ alpha d = ch) ∧
  ((List.range 256).filter fun n => digitOf (BitVec.ofNat 8 n) = none).length = 194

/-- R141: `DivMod62` gives the unique quotient and remainder, exactly. -/
def Obligations.DivModExact : Prop :=
  ∀ a : BitVec 256,
    a.toNat = 62 * (divMod62 a).1.toNat + (divMod62 a).2.toNat ∧ (divMod62 a).2.toNat ≤ 61 ∧
    (∀ q r : Nat, a.toNat = 62 * q + r → r ≤ 61 → q = (divMod62 a).1.toNat ∧ r = (divMod62 a).2.toNat) ∧
    (divMod62 a).1.toNat ≤ a.toNat ∧ (0 < a.toNat → (divMod62 a).1.toNat < a.toNat) ∧
    (a.toNat ≤ 61 → (divMod62 a).1.toNat = 0 ∧ (divMod62 a).2.toNat = a.toNat)

/-- R143, R144: inside its domain `MulAdd62` is exact, and it takes a value below `62^k` to one below `62^(k+1)`; the
257 bits hold every fold of at most 43 characters. -/
def Obligations.MulAddNeverWraps : Prop :=
  (∀ (a : Accum) (d : Digit) (k : Nat), k ≤ 42 → a.toNat < 62 ^ k → d.toNat ≤ 61 →
    (mulAdd62 a d).toNat = 62 * a.toNat + d.toNat ∧ (mulAdd62 a d).toNat < 62 ^ (k + 1)) ∧
  62 ^ 43 ≤ 2 * 2 ^ 256

/-- R68: the byte sequence is read big-endian, `B[0]` most significant, as the sum of R68; entries from `n` up are
ignored. R94: it is below `256^n`, so the 257 bits of `ACC` hold it. -/
def Obligations.BytesBigEndian : Prop :=
  (∀ (b : Vector Byte 32) (n : Nat), n ≤ 32 →
    bytesToNat b n = ∑ i ∈ Finset.range n, (b.toList.getD i 0#8).toNat * 256 ^ (n - 1 - i) ∧
    bytesToNat b n < 256 ^ n ∧ (BitVec.ofNat 257 (bytesToNat b n)).toNat = bytesToNat b n) ∧
  (∀ (b b' : Vector Byte 32) (n : Nat), (∀ i (h : i < 32), i < n → b[i] = b'[i]) →
    bytesToNat b n = bytesToNat b' n)

/-- R95: `NatToBytes32(v)[i] = (v div 256^(31-i)) mod 256`, its value is `v`, and in register terms
`B[i] <- ACC[8*(31-i)+7 : 8*(31-i)]`. -/
def Obligations.BytesRendering : Prop :=
  (∀ (v i : Nat) (h : i < 32), v < 2 ^ 256 → ((natToBytes32 v)[i]).toNat = v / 256 ^ (31 - i) % 256) ∧
  (∀ v : Nat, v < 2 ^ 256 → bytesToNat (natToBytes32 v) 32 = v) ∧
  (∀ (a : Accum) (i : Nat) (h : i < 32), a.getLsbD 256 = false →
    (natToBytes32 a.toNat)[i] = a.extractLsb' (8 * (31 - i)) 8)

/-- R142: below `2^256` the repeated division takes `n(a)` iterations, at most 43; `n(0) = 1`, and for `a > 0` it is the
number of base-62 digits; the remainders are the digits, least significant first, the last non-zero unless
`a = 0`. -/
def Obligations.DigitCountLaw : Prop :=
  digitCount 0 = 1 ∧
  ∀ a : Nat, a < 2 ^ 256 →
    1 ≤ digitCount a ∧ digitCount a ≤ 43 ∧
    (0 < a → 62 ^ (digitCount a - 1) ≤ a ∧ a < 62 ^ digitCount a) ∧
    (∀ r ∈ digitsOf a, r ≤ 61) ∧
    a = ∑ k ∈ Finset.range (digitCount a), (digitsOf a).getD k 0 * 62 ^ k ∧
    (a ≠ 0 → (digitsOf a).getLast? ≠ some 0)

/-- R160: `EncodeFn(v)` is the list of the characters of the digits of `v`, most significant first. -/
def Obligations.EncodeFnDigits : Prop :=
  ∀ v : Nat, v < 2 ^ 256 →
    (encodeFn v).length = digitCount v ∧
    ∀ j, j < digitCount v →
      (encodeFn v)[j]? = some (alpha (BitVec.ofNat 6 (v / 62 ^ (digitCount v - 1 - j) % 62)))

/-- R190: `DecodeFn(s)` is `InvalidCharacter` if some character has no digit, else `Overflow` if the value is `2^256`
or more, else the value `sum DIGIT(s[j]) * 62^(L-1-j)`. -/
def Obligations.DecodeFnValue : Prop :=
  ∀ s : List Byte, s.length ≤ 43 →
    ((∃ ch ∈ s, digitOf ch = none) → decodeFn s = .error .invalidCharacter) ∧
    ∀ v : Nat, v = ∑ j ∈ Finset.range s.length,
        ((digitOf (s.getD j 0#8)).getD 0#6).toNat * 62 ^ (s.length - 1 - j) →
      (∀ ch ∈ s, digitOf ch ≠ none) →
      (2 ^ 256 ≤ v → decodeFn s = .error .overflow) ∧ (v < 2 ^ 256 → decodeFn s = .ok v)

/-- R170: the result has 1 to 43 characters, all of the alphabet, no leading `A` unless it is the one character `A`;
43 characters exactly from `62^42` on; and two values with the same string are equal. -/
def Obligations.EncodeFnCanonical : Prop :=
  (∀ v : Nat, v < 2 ^ 256 →
    1 ≤ (encodeFn v).length ∧ (encodeFn v).length ≤ 43 ∧
    (∀ ch ∈ encodeFn v, digitOf ch ≠ none) ∧
    ((encodeFn v).head? = some 0x41#8 → (encodeFn v).length = 1) ∧
    ((encodeFn v).length = 43 ↔ 62 ^ 42 ≤ v)) ∧
  encodeFn 0 = [0x41#8] ∧
  ∀ v w : Nat, v < 2 ^ 256 → w < 2 ^ 256 → encodeFn v = encodeFn w → v = w

/-- R200 (a), (b), (d): decoding an encoded value gives it back; leading `A` characters do not change the value; and
a string of 42 or fewer characters never overflows. That (b) is said of strings longer than 43 characters too, where
R190 does not define `DecodeFn`, rests on the model's choice (log entry 23). -/
def Obligations.DecodeFnOfEncodeFn : Prop :=
  (∀ v : Nat, v < 2 ^ 256 → decodeFn (encodeFn v) = .ok v) ∧
  (∀ s : List Byte, decodeFn (0x41#8 :: s) = decodeFn s) ∧
  (∀ s : List Byte, s.length ≤ 42 → decodeFn s ≠ .error .overflow)

/-! ### Host accesses -/

/-- R62: what a read returns while `PH = IDLE`, offset by offset; it changes no state of the block (the list that takes
the byte is the host's, log entry 8). -/
def Obligations.ReadWhenIdle : Prop :=
  ∀ (s : State) (a : Offset), s.regs.ph = Config.phIdle →
    ∃ v : Byte, exec (.rd a) s = .next { s with replies := v :: s.replies } ∧
      (∀ h : a.toNat < 32, v = s.regs.b[a.toNat]) ∧
      (a = 0x20#7 → v = s.regs.blen) ∧ (a = 0x21#7 → v = s.regs.clen) ∧ (a = 0x22#7 → v = 0x00#8) ∧
      (a = 0x23#7 → v = s.regs.status) ∧
      (∀ j (h : j < 43), a.toNat = 0x40 + j → v = s.regs.c[j]) ∧
      (0x24 ≤ a.toNat → a.toNat ≤ 0x3F → v = 0x00#8) ∧ (0x6B ≤ a.toNat → v = 0x00#8)

/-- R63: what a write does while `PH = IDLE`, offset by offset; the write of `CMD` is the acceptance of R121 (the
statement AcceptCommand says what that is). -/
def Obligations.WriteWhenIdle : Prop :=
  ∀ (s : State) (a : Offset) (v : Byte), s.regs.ph = Config.phIdle →
    ∃ r : Regs, exec (.wr a v) s = .next { s with regs := r } ∧
      (∀ h : a.toNat < 32, r = { s.regs with b := s.regs.b.set a.toNat v }) ∧
      (a = 0x20#7 → r = { s.regs with blen := v }) ∧ (a = 0x21#7 → r = { s.regs with clen := v }) ∧
      (a = 0x22#7 → r = s.regs.accept v) ∧ (a = 0x23#7 → r = s.regs) ∧
      (∀ j (h : j < 43), a.toNat = 0x40 + j → r = { s.regs with c := s.regs.c.set j v }) ∧
      (0x24 ≤ a.toNat → a.toNat ≤ 0x3F → r = s.regs) ∧ (0x6B ≤ a.toNat → r = s.regs)

/-- R64: while an operation is in flight a read of 0x23 returns `STATUS` (0x01 in every state of a run), every other
read returns 0x00, and every write, `CMD` included, is dropped. -/
def Obligations.AccessInFlight : Prop :=
  (∀ (s : State) (a : Offset) (v : Byte), s.regs.ph ≠ Config.phIdle →
    exec (.rd a) s =
      .next { s with replies := (if a = 0x23#7 then s.regs.status else 0x00#8) :: s.replies } ∧
    exec (.wr a v) s = .next s ∧ exec .enc s = .next s ∧ exec .dec s = .next s) ∧
  (∀ s : State, Reachable s → s.regs.ph ≠ Config.phIdle → s.regs.status = 0x01#8)

/-- R65: a reserved offset reads 0x00 and ignores writes in every phase. -/
def Obligations.ReservedOffsets : Prop :=
  ∀ (s : State) (a : Offset) (v : Byte),
    (0x24 ≤ a.toNat ∧ a.toNat ≤ 0x3F) ∨ (0x6B ≤ a.toNat ∧ a.toNat ≤ 0x7F) →
    exec (.rd a) s = .next { s with replies := 0x00#8 :: s.replies } ∧ exec (.wr a v) s = .next s

/-- The frame of a write that is not a command (R63, R67): it changes no other location of the register space, no
working register, nothing on the host's side; and what is stored is read back (R276). -/
def Obligations.FrameHostWrite : Prop :=
  ∀ (s t : State) (a : Offset) (v : Byte), a ≠ Config.cmdOffset → exec (.wr a v) s = .next t →
    (∀ x : Offset, x ≠ a → t.regs.peek x = s.regs.peek x) ∧
    (s.regs.ph = Config.phIdle → t.regs.peek a = v ∨ (t.regs = s.regs ∧ (a = 0x23#7 ∨ s.regs.peek a = 0x00#8))) ∧
    t.regs.status = s.regs.status ∧ t.regs.ph = s.regs.ph ∧ t.regs.acc = s.regs.acc ∧ t.regs.ds = s.regs.ds ∧
    t.regs.dcnt = s.regs.dcnt ∧ t.regs.idx = s.regs.idx ∧ t.script = s.script ∧ t.replies = s.replies

/-- R67: a read has no side effect at any offset, in any phase: every register and the rest of the script are as
before, and reading again gives the same byte. -/
def Obligations.FrameHostRead : Prop :=
  ∀ (s t : State) (a : Offset), exec (.rd a) s = .next t →
    t.regs = s.regs ∧ t.script = s.script ∧
    ∃ v, t.replies = v :: s.replies ∧ exec (.rd a) t = .next { t with replies := v :: t.replies }

/-- R127, R229: `STATUS` keeps its value until the next acceptance or reset: with `PH = IDLE`, no step but a reset or a
write of `CMD` changes it. -/
def Obligations.StatusIsKept : Prop :=
  ∀ s t : State, s.regs.ph = Config.phIdle → s.script.head? ≠ some .reset →
    (∀ w, s.script.head? = some (.access w) → ¬(txIsWrite w = true ∧ txOffset w = Config.cmdOffset)) →
    step s = .next t → t.regs.status = s.regs.status

/-! ### Commands -/

/-- R121, R125: a write of `CMD` while `PH = IDLE` is the command it names, a reserved code changes `STATUS` to 0x12 and
nothing else; while an operation is in flight it is dropped. -/
def Obligations.AcceptCommand : Prop :=
  ∀ (s : State) (v : Byte),
    (s.regs.ph = Config.phIdle →
      (v = 0x01#8 → exec (.wr 0x22#7 v) s = exec .enc s) ∧ (v = 0x02#8 → exec (.wr 0x22#7 v) s = exec .dec s) ∧
      (v ≠ 0x01#8 → v ≠ 0x02#8 →
        exec (.wr 0x22#7 v) s = .next { s with regs := { s.regs with status := 0x12#8 } })) ∧
    (s.regs.ph ≠ Config.phIdle → exec (.wr 0x22#7 v) s = .next s)

/-- R162: `ENC` with `BLEN` above 32 completes at acceptance with `InvalidLength`: `STATUS` 0x06, nothing else; and only
then. -/
def Obligations.EncLengthCheck : Prop :=
  ∀ s : State, s.regs.ph = Config.phIdle →
    (33 ≤ s.regs.blen.toNat → exec .enc s = .next { s with regs := { s.regs with status := 0x06#8 } }) ∧
    (∀ t, s.regs.blen.toNat ≤ 32 → exec .enc s = .next t → t.regs.status ≠ 0x06#8)

/-- R163: `ENC` with `BLEN` at most 32 loads `ACC`, clears the counters and goes in flight; nothing else changes. -/
def Obligations.EncLoad : Prop :=
  ∀ s : State, s.regs.ph = Config.phIdle → s.regs.blen.toNat ≤ 32 →
    exec .enc s = .next { s with regs := { s.regs with
      acc := BitVec.ofNat 257 (bytesToNat s.regs.b s.regs.blen.toNat)
      dcnt := 0#6, idx := 0#6, status := 0x01#8, ph := 1#3 } }

/-- R192: `DEC` with `CLEN` above 43 completes at acceptance with `InvalidLength`: `STATUS` 0x06, nothing else; and only
then. -/
def Obligations.DecLengthCheck : Prop :=
  ∀ s : State, s.regs.ph = Config.phIdle →
    (44 ≤ s.regs.clen.toNat → exec .dec s = .next { s with regs := { s.regs with status := 0x06#8 } }) ∧
    (∀ t, s.regs.clen.toNat ≤ 43 → exec .dec s = .next t → t.regs.status ≠ 0x06#8)

/-- R194: `DEC` with `CLEN` at most 43 clears `ACC` and the counters and goes in flight, to `DEC_CHK` at once when the
string is empty; nothing else changes. -/
def Obligations.DecStart : Prop :=
  ∀ s : State, s.regs.ph = Config.phIdle → s.regs.clen.toNat ≤ 43 →
    exec .dec s = .next { s with regs := { s.regs with
      acc := 0#257, idx := 0#6, dcnt := 0#6, status := 0x01#8
      ph := if s.regs.clen = 0#8 then 4#3 else 3#3 } }

/-- The frame of acceptance (R33, R93, R162 to R164, R192, R194): no location of the register space but `STATUS` changes,
nor `DS`, nor the host's side; on an error no working register does (R228). -/
def Obligations.FrameAcceptance : Prop :=
  ∀ (s t : State) (i : Instr), i = .enc ∨ i = .dec → exec i s = .next t →
    (∀ x : Offset, x ≠ Config.statusOffset → t.regs.peek x = s.regs.peek x) ∧
    t.regs.b = s.regs.b ∧ t.regs.blen = s.regs.blen ∧ t.regs.c = s.regs.c ∧ t.regs.clen = s.regs.clen ∧
    t.regs.ds = s.regs.ds ∧ t.script = s.script ∧ t.replies = s.replies ∧
    (t.regs.ph = Config.phIdle →
      t.regs.acc = s.regs.acc ∧ t.regs.dcnt = s.regs.dcnt ∧ t.regs.idx = s.regs.idx)

/-- R228: `raise` writes `STATUS <- (k << 2) | 0x02` and `PH <- IDLE` and nothing else; the four values of R221. -/
def Obligations.RaiseWritesStatus : Prop :=
  (∀ (r : Regs) (k : ErrKind),
    r.raise k = { r with status := (k.code.setWidth 8 <<< 2) ||| 0x02#8, ph := 0#3 }) ∧
  statusError .invalidLength = 0x06#8 ∧ statusError .invalidCharacter = 0x0A#8 ∧
  statusError .overflow = 0x0E#8 ∧ statusError .illegalCommand = 0x12#8

/-! ### Core steps -/

/-- R165: one divide-and-remainder iteration, wherever `DCNT` names an entry of `DS`: the remainder is stored, the count
goes up, the quotient replaces `ACC`, and on a zero quotient `IDX` is cleared and `ENC_REV` is next. -/
def Obligations.EncDivStep : Prop :=
  ∀ (s : State) (h : s.regs.dcnt.toNat < 43) (a : Nat), a = s.regs.acc.toNat % 2 ^ 256 →
    exec .encDiv s = .next { s with regs := { s.regs with
      ds := s.regs.ds.set s.regs.dcnt.toNat (BitVec.ofNat 6 (a % 62))
      dcnt := s.regs.dcnt + 1#6
      acc := BitVec.ofNat 257 (a / 62)
      idx := if a / 62 = 0 then 0#6 else s.regs.idx
      ph := if a / 62 = 0 then 2#3 else s.regs.ph } }

/-- R168: one reversal-and-mapping iteration, wherever `IDX < DCNT <= 43`; the last one writes `CLEN`, sets `STATUS`
0x02 and goes idle. (`ALPHA` of 62 and 63, which no run stores, is a free value: log entry 6.) -/
def Obligations.EncRevStep : Prop :=
  ∀ (s : State) (hd : s.regs.dcnt.toNat ≤ 43) (hi : s.regs.idx.toNat < s.regs.dcnt.toNat),
    exec .encRev s = .next { s with regs := { s.regs with
      c := s.regs.c.set s.regs.idx.toNat
        (alpha (s.regs.ds[s.regs.dcnt.toNat - 1 - s.regs.idx.toNat]'(by omega))) (by omega)
      idx := s.regs.idx + 1#6
      clen := if s.regs.idx.toNat + 1 = s.regs.dcnt.toNat then s.regs.dcnt.setWidth 8 else s.regs.clen
      status := if s.regs.idx.toNat + 1 = s.regs.dcnt.toNat then 0x02#8 else s.regs.status
      ph := if s.regs.idx.toNat + 1 = s.regs.dcnt.toNat then 0#3 else s.regs.ph } }

/-- R195: one lookup and multiply-add iteration, wherever `IDX` names an entry of `C`: a character with no digit ends
the command with `STATUS` 0x0A and nothing else; otherwise it is folded and the count goes up. Outside the domain
of R143 the new `ACC` is a free value (log entry 7), and the rest of the effect is the same. -/
def Obligations.DecMacStep : Prop :=
  ∀ (s : State) (h : s.regs.idx.toNat < 43),
    (digitOf s.regs.c[s.regs.idx.toNat] = none →
      exec .decMac s = .next { s with regs := { s.regs with status := 0x0A#8, ph := 0#3 } }) ∧
    (∀ d, digitOf s.regs.c[s.regs.idx.toNat] = some d →
      ∃ v : Accum, (s.regs.acc.toNat < 62 ^ 42 → v = BitVec.ofNat 257 (62 * s.regs.acc.toNat + d.toNat)) ∧
        exec .decMac s = .next { s with regs := { s.regs with
          acc := v
          idx := s.regs.idx + 1#6
          ph := if s.regs.idx.toNat + 1 = s.regs.clen.toNat then 4#3 else s.regs.ph } })

/-- R198: with `ACC[256] = 1`, that is with a value of `2^256` or more (R147), `DEC_CHK` ends the command with `STATUS`
0x0E and nothing else; otherwise all 32 bytes are written, `BLEN` becomes 32 and `STATUS` 0x02. -/
def Obligations.DecChkStep : Prop :=
  ∀ s : State,
    (s.regs.acc.getLsbD 256 = true ↔ 2 ^ 256 ≤ s.regs.acc.toNat) ∧
    (s.regs.acc.getLsbD 256 = true →
      exec .decChk s = .next { s with regs := { s.regs with status := 0x0E#8, ph := 0#3 } }) ∧
    (s.regs.acc.getLsbD 256 = false →
      exec .decChk s = .next { s with regs := { s.regs with
        b := natToBytes32 s.regs.acc.toNat, blen := 32#8, status := 0x02#8, ph := 0#3 } })

/-- The frame of `ENC_DIV` (R165) and `ENC_REV` (R168): the first changes no location of the register space and no
other entry of `DS`; the second changes only the character at `IDX`, and in its last iteration `CLEN` and
`STATUS`, and no entry of `DS`. -/
def Obligations.FrameEncodeSteps : Prop :=
  ∀ s t : State,
    (exec .encDiv s = .next t →
      (∀ x : Offset, t.regs.peek x = s.regs.peek x) ∧
      (∀ k (h : k < 43), k ≠ s.regs.dcnt.toNat → t.regs.ds[k] = s.regs.ds[k]) ∧
      t.script = s.script ∧ t.replies = s.replies) ∧
    (exec .encRev s = .next t →
      (∀ x : Offset, x.toNat ≠ 0x40 + s.regs.idx.toNat → x ≠ Config.clenOffset → x ≠ Config.statusOffset →
        t.regs.peek x = s.regs.peek x) ∧
      (s.regs.idx.toNat + 1 ≠ s.regs.dcnt.toNat →
        t.regs.clen = s.regs.clen ∧ t.regs.status = s.regs.status ∧ t.regs.ph = s.regs.ph) ∧
      t.regs.ds = s.regs.ds ∧ t.regs.dcnt = s.regs.dcnt ∧ t.regs.acc = s.regs.acc ∧
      t.script = s.script ∧ t.replies = s.replies)

/-- The frame of `DEC_MAC` (R195, R196) and `DEC_CHK` (R198): the first changes no location but `STATUS`, and that only
on a bad character; the second writes `B`, `BLEN` and `STATUS`, and on overflow `STATUS` alone. Neither touches `DS`
or `DCNT`. -/
def Obligations.FrameDecodeSteps : Prop :=
  ∀ s t : State,
    (exec .decMac s = .next t →
      (∀ x : Offset, x ≠ Config.statusOffset → t.regs.peek x = s.regs.peek x) ∧
      (t.regs.ph ≠ Config.phIdle → t.regs.status = s.regs.status) ∧
      (t.regs.status ≠ s.regs.status → t.regs.acc = s.regs.acc ∧ t.regs.idx = s.regs.idx) ∧
      t.regs.ds = s.regs.ds ∧ t.regs.dcnt = s.regs.dcnt ∧ t.script = s.script ∧ t.replies = s.replies) ∧
    (exec .decChk s = .next t →
      (∀ x : Offset, 32 ≤ x.toNat → x ≠ Config.blenOffset → x ≠ Config.statusOffset →
        t.regs.peek x = s.regs.peek x) ∧
      (s.regs.acc.getLsbD 256 = true →
        ∀ x : Offset, x ≠ Config.statusOffset → t.regs.peek x = s.regs.peek x) ∧
      t.regs.acc = s.regs.acc ∧ t.regs.idx = s.regs.idx ∧ t.regs.ds = s.regs.ds ∧ t.regs.dcnt = s.regs.dcnt ∧
      t.script = s.script ∧ t.replies = s.replies)

/-- Where the core steps stop: at an index the register files do not have, which R146 says is never computed. The stop
and its name are the model's choice (log entry 5). -/
def Obligations.IndexStops : Prop :=
  ∀ s : State,
    (43 ≤ s.regs.dcnt.toNat → exec .encDiv s = .fault .digitIndex) ∧
    (s.regs.dcnt.toNat ≤ s.regs.idx.toNat → exec .encRev s = .fault .digitIndex) ∧
    (43 ≤ s.regs.idx.toNat → exec .decMac s = .fault .charIndex)

/-! ### Invariants -/

/-- R26, R27, R36: the invariant holds at reset. -/
def Obligations.InvAtReset : Prop := Inv State.reset.regs

/-- R26, R27, R36: every step keeps the invariant, from every state that has it, whatever the host does. -/
def Obligations.StepKeepsInv : Prop :=
  ∀ s t : State, Inv s.regs → step s = .next t → Inv t.regs

/-- R146, R148, R280: under the invariant no step faults, and the only move refused is a wide access
(with `PH = IDLE` a turn of the core is a next state: log entry 3). -/
def Obligations.InvNeverStops : Prop :=
  ∀ s : State, Inv s.regs → (∀ z, s.script.head? ≠ some (.wide z)) → ∃ t, step s = .next t

/-- R27: the `STATUS` invariants, in every reachable state; R26: "the only values it ever holds are 0x00 [...], 0x01,
0x02, 0x06, 0x0A, 0x0E, 0x12". -/
def Obligations.StatusRuleReachable : Prop :=
  ∀ s : State, Reachable s →
    (statusBusy s.regs.status = true ↔ s.regs.ph ≠ 0#3) ∧
    ¬(statusBusy s.regs.status = true ∧ statusDone s.regs.status = true) ∧
    (statusErr s.regs.status ≠ 0#3 → statusDone s.regs.status = true) ∧
    statusReserved s.regs.status = 0#3 ∧
    s.regs.status ∈ [0x00#8, 0x01#8, 0x02#8, 0x06#8, 0x0A#8, 0x0E#8, 0x12#8]

/-- R36: the counters, the accumulator and the divide loop's equation, in every reachable state. -/
def Obligations.CounterRuleReachable : Prop :=
  ∀ s : State, Reachable s →
    s.regs.dcnt.toNat ≤ 43 ∧ s.regs.idx.toNat ≤ 43 ∧
    (s.regs.ph = 1#3 → s.regs.blen.toNat ≤ 32 ∧ s.regs.acc.toNat < 2 ^ 256 ∧
      62 ^ s.regs.dcnt.toNat * s.regs.acc.toNat + dsValue s.regs.ds s.regs.dcnt.toNat =
        bytesToNat s.regs.b s.regs.blen.toNat) ∧
    (s.regs.ph = 2#3 → 1 ≤ s.regs.dcnt.toNat ∧ s.regs.dcnt.toNat ≤ 43 ∧
      s.regs.idx.toNat < s.regs.dcnt.toNat ∧ s.regs.acc = 0#257) ∧
    (s.regs.ph = 3#3 → s.regs.clen.toNat ≤ 43 ∧ s.regs.idx.toNat < s.regs.clen.toNat ∧
      s.regs.acc.toNat < 62 ^ s.regs.idx.toNat) ∧
    (s.regs.ph = 4#3 → s.regs.clen.toNat ≤ 43 ∧ s.regs.acc.toNat < 62 ^ s.regs.clen.toNat ∧
      62 ^ s.regs.clen.toNat ≤ 62 ^ 43)

/-- R126: the phase graph. Each edge with its condition, and no other change of `PH` but a reset. -/
def Obligations.PhaseGraph : Prop :=
  ∀ s t : State, Inv s.regs → s.script.head? ≠ some .reset → step s = .next t →
    t.regs.ph = s.regs.ph ∨
    (s.regs.ph = 0#3 ∧ t.regs.ph = 1#3 ∧ s.script.head? = some (.access 0xA201#16) ∧ s.regs.blen.toNat ≤ 32) ∨
    (s.regs.ph = 1#3 ∧ t.regs.ph = 2#3 ∧ s.regs.acc.toNat / 62 = 0) ∨
    (s.regs.ph = 2#3 ∧ t.regs.ph = 0#3 ∧ s.regs.idx.toNat + 1 = s.regs.dcnt.toNat ∧ t.regs.status = 0x02#8) ∨
    (s.regs.ph = 0#3 ∧ t.regs.ph = 3#3 ∧ s.script.head? = some (.access 0xA202#16) ∧
      1 ≤ s.regs.clen.toNat ∧ s.regs.clen.toNat ≤ 43) ∨
    (s.regs.ph = 0#3 ∧ t.regs.ph = 4#3 ∧ s.script.head? = some (.access 0xA202#16) ∧ s.regs.clen = 0#8) ∨
    (s.regs.ph = 3#3 ∧ t.regs.ph = 0#3 ∧ (s.regs.c.toList[s.regs.idx.toNat]?).bind digitOf = none ∧
      t.regs.status = 0x0A#8) ∨
    (s.regs.ph = 3#3 ∧ t.regs.ph = 4#3 ∧ (s.regs.c.toList[s.regs.idx.toNat]?).bind digitOf ≠ none ∧
      s.regs.idx.toNat + 1 = s.regs.clen.toNat) ∨
    (s.regs.ph = 4#3 ∧ t.regs.ph = 0#3 ∧ (t.regs.status = 0x02#8 ∨ t.regs.status = 0x0E#8))

/-- R64, R73: the operands of an operation are those present at acceptance: while it is in flight no step but a reset
changes its source buffer or length. -/
def Obligations.OperandsConstantInFlight : Prop :=
  ∀ s t : State, s.script.head? ≠ some .reset → step s = .next t →
    (s.regs.ph = 1#3 ∨ s.regs.ph = 2#3 → t.regs.b = s.regs.b ∧ t.regs.blen = s.regs.blen) ∧
    (s.regs.ph = 3#3 ∨ s.regs.ph = 4#3 → t.regs.c = s.regs.c ∧ t.regs.clen = s.regs.clen)

/-! ### Whole operations -/

/-- R128: every operation ends. From every state with the invariant the core, left alone (log entry 2), is idle again
within 86 steps. -/
def Obligations.CoreTerminates : Prop :=
  ∀ s : State, Inv s.regs → s.script = [] →
    ∃ k t, k ≤ 86 ∧ Host.Core.run Sys2Proof.core k s = .next t ∧ t.regs.ph = Config.phIdle

/-- R169, R128: an accepted `ENC` with `BLEN <= 32` and `v = BytesToNat(B, BLEN)` completes after exactly `2 * n(v)` core
steps, with `C[j] = EncodeFn(v)[j]`, `CLEN = n(v)`, `STATUS = 0x02`, and `B`, `BLEN` and `C[n(v)..42]` as at
acceptance. The core runs on with an empty script: log entry 2. -/
def Obligations.EncodeResult : Prop :=
  ∀ (s : State) (v : Nat), s.regs.ph = Config.phIdle → s.script = [] → s.regs.blen.toNat ≤ 32 →
    v = bytesToNat s.regs.b s.regs.blen.toNat →
    ∃ t u, exec .enc s = .next t ∧ Host.Core.run Sys2Proof.core (2 * digitCount v) t = .next u ∧
      u.regs.ph = Config.phIdle ∧ u.regs.status = 0x02#8 ∧ u.regs.clen.toNat = digitCount v ∧
      (∀ j (h : j < 43), j < digitCount v → (encodeFn v)[j]? = some u.regs.c[j]) ∧
      (∀ j (h : j < 43), digitCount v ≤ j → u.regs.c[j] = s.regs.c[j]) ∧
      u.regs.b = s.regs.b ∧ u.regs.blen = s.regs.blen ∧ u.script = [] ∧ u.replies = s.replies ∧
      ∀ k, k < 2 * digitCount v →
        ∃ w, Host.Core.run Sys2Proof.core k t = .next w ∧ w.regs.ph ≠ Config.phIdle ∧ w.regs.status = 0x01#8

/-- R199, R128: an accepted `DEC` with `CLEN <= 43` completes after `k + 1` core steps if the first bad character is at
`k`, else after `CLEN + 1`, with the result of `DecodeFn`: an error in `STATUS` and `B`, `BLEN` unchanged, or the 32
bytes of the value. `C` and `CLEN` are unchanged. The core runs on with an empty script: log entry 2. -/
def Obligations.DecodeResult : Prop :=
  ∀ (s : State) (text : List Byte), s.regs.ph = Config.phIdle → s.script = [] → s.regs.clen.toNat ≤ 43 →
    text = s.regs.c.toList.take s.regs.clen.toNat →
    ∃ t, exec .dec s = .next t ∧
      (∀ k, firstBad text = some k → decodeFn text = .error .invalidCharacter ∧
        ∃ u, Host.Core.run Sys2Proof.core (k + 1) t = .next u ∧ u.regs.ph = Config.phIdle ∧
          u.regs.status = 0x0A#8 ∧ u.regs.b = s.regs.b ∧ u.regs.blen = s.regs.blen ∧
          u.regs.c = s.regs.c ∧ u.regs.clen = s.regs.clen) ∧
      (firstBad text = none →
        ∃ u, Host.Core.run Sys2Proof.core (s.regs.clen.toNat + 1) t = .next u ∧ u.regs.ph = Config.phIdle ∧
          u.regs.c = s.regs.c ∧ u.regs.clen = s.regs.clen ∧
          ((decodeFn text = .error .overflow ∧ u.regs.status = 0x0E#8 ∧ u.regs.b = s.regs.b ∧
              u.regs.blen = s.regs.blen) ∨
            ∃ v, decodeFn text = .ok v ∧ u.regs.status = 0x02#8 ∧ u.regs.b = natToBytes32 v ∧
              u.regs.blen = 32#8))

/-- R129: whatever host accesses are attempted in between, a command and all its core steps leave the host-visible
registers as the whole-operation pseudocode of R123 and R124 says; in flight, reads of `STATUS` return 0x01, other
reads 0x00, and writes are dropped. -/
def Obligations.InterleavedOperation : Prop :=
  ∀ (s : State) (moves : List Move), s.regs.ph = Config.phIdle →
    (∀ m ∈ moves, m = .core ∨ ∃ w, m = .access w) → (∀ m, moves.getLast? = some m → m = .core) →
    ∀ (i : Instr) (steps : Nat) (result : Regs),
      (i = .enc ∧ steps = s.regs.encSteps ∧ result = s.regs.wholeEnc) ∨
      (i = .dec ∧ steps = s.regs.decSteps ∧ result = s.regs.wholeDec) →
      moves.count .core = steps →
      ∃ t u, exec i { s with script := moves } = .next t ∧
        Host.Core.run Sys2Proof.core moves.length t = .next u ∧
        u.regs.view = result.view ∧ u.regs.ph = Config.phIdle ∧ u.script = [] ∧
        u.replies = (moves.filterMap fun m =>
          match m with
          | .access w => if txIsWrite w then none else some (if txOffset w = 0x23#7 then 0x01#8 else 0x00#8)
          | _ => none).reverse ++ s.replies

/-- R171: `ENC` and then `DEC` gives the value back in 32-byte form; with `BLEN = 32` the pair leaves `B` unchanged.
The core runs on with an empty script: log entry 2. -/
def Obligations.RoundTrip : Prop :=
  ∀ (s : State) (v : Nat), s.regs.ph = Config.phIdle → s.script = [] → s.regs.blen.toNat ≤ 32 →
    v = bytesToNat s.regs.b s.regs.blen.toNat →
    ∃ t u w x, exec .enc s = .next t ∧ Host.Core.run Sys2Proof.core (2 * digitCount v) t = .next u ∧
      exec .dec u = .next w ∧ Host.Core.run Sys2Proof.core (digitCount v + 1) w = .next x ∧
      x.regs.ph = Config.phIdle ∧ x.regs.status = 0x02#8 ∧ x.regs.blen = 32#8 ∧ x.regs.b = natToBytes32 v ∧
      (s.regs.blen = 32#8 → x.regs.b = s.regs.b)

/-- R33: what an earlier operation or reset left in the working registers cannot influence anything the host sees: two
idle states that agree on the host-visible registers give the same replies and the same host-visible registers
under every script. -/
def Obligations.HiddenStateInvisible : Prop :=
  ∀ (n : Nat) (s₁ s₂ t₁ : State), s₁.regs.ph = Config.phIdle → s₂.regs.ph = Config.phIdle →
    s₁.regs.view = s₂.regs.view → s₁.script = s₂.script → s₁.replies = s₂.replies →
    Host.Core.run Sys2Proof.core n s₁ = .next t₁ →
    ∃ t₂, Host.Core.run Sys2Proof.core n s₂ = .next t₂ ∧ t₂.regs.view = t₁.regs.view ∧
      t₂.regs.ph = t₁.regs.ph ∧ t₂.script = t₁.script ∧ t₂.replies = t₁.replies

/-- R101: the script `encodeBytes(data)`, that is `SETB data; ENC; WAIT; GETC` and a test of `STATUS.ERR`, ends; its last
replies are, in order, 0x02 (`WAIT`), the count `n` and the `n` characters of the string of the data's value (`GETC`),
and 0x02 (the test). The interleaving is the one of log entry 16, the test's read that of log entry 25. -/
def Obligations.EncodeBytesScript : Prop :=
  ∀ (s : State) (data : List Byte) (text : List Byte), s.regs.ph = Config.phIdle → data.length ≤ 32 →
    s.script = encodeBytes data → text = encodeFn (ofPlaces 256 (data.map BitVec.toNat)) →
    ∃ n t, Host.Core.run Sys2Proof.core n s = .next t ∧ t.script = [] ∧ t.regs.ph = Config.phIdle ∧
      t.replies.take (text.length + 3) = 0x02#8 :: (text.reverse ++ [BitVec.ofNat 8 text.length, 0x02#8]) ∧
      t.regs.c.toList.take t.regs.clen.toNat = text

/-- R101: the script `decodeBytes(text)`, that is `SETC text; DEC; WAIT; GETB` and a test of `STATUS.ERR`, ends; for a text
with a value its last replies are, in order, 0x02 (`WAIT`), the 32 bytes of the value (`GETB`) and 0x02 (the test). The
interleaving is the one of log entry 16, the test's read that of log entry 25. -/
def Obligations.DecodeBytesScript : Prop :=
  ∀ (s : State) (text : List Byte) (v : Nat), s.regs.ph = Config.phIdle → text.length ≤ 43 →
    s.script = decodeBytes text → decodeFn text = .ok v →
    ∃ n t, Host.Core.run Sys2Proof.core n s = .next t ∧ t.script = [] ∧ t.regs.ph = Config.phIdle ∧
      t.replies.take 34 = 0x02#8 :: ((natToBytes32 v).toList.reverse ++ [0x02#8])

/-- R270: the host protocol, its steps 2 to 6, from any idle state. On success the string or the bytes are read after
the test; on an error the last reply is the error's `STATUS`, the destination is not read, and it and its length are
unchanged. Data longer than 32 bytes and text longer than 43 characters are reported by the length alone. The
interleaving is the one of log entry 16, the test's read that of log entry 25, the order of step 2's writes and the
length above the limit those of log entry 29. -/
def Obligations.HostProtocol : Prop :=
  (∀ (s : State) (data : List Byte), s.regs.ph = Config.phIdle → s.script = encodeProtocol data →
    ∃ n t, Host.Core.run Sys2Proof.core n s = .next t ∧ t.script = [] ∧ t.regs.ph = Config.phIdle ∧
      (∀ text, data.length ≤ 32 → text = encodeFn (ofPlaces 256 (data.map BitVec.toNat)) →
        t.replies.take (text.length + 2) = text.reverse ++ [BitVec.ofNat 8 text.length, 0x02#8]) ∧
      (32 < data.length → t.replies.head? = some 0x06#8 ∧ t.regs.c = s.regs.c ∧ t.regs.clen = s.regs.clen)) ∧
  (∀ (s : State) (text : List Byte), s.regs.ph = Config.phIdle → s.script = decodeProtocol text →
    ∃ n t, Host.Core.run Sys2Proof.core n s = .next t ∧ t.script = [] ∧ t.regs.ph = Config.phIdle ∧
      (∀ v, text.length ≤ 43 → decodeFn text = .ok v →
        t.replies.take 33 = (natToBytes32 v).toList.reverse ++ [0x02#8]) ∧
      (∀ k, (43 < text.length ∧ k = .invalidLength) ∨ (text.length ≤ 43 ∧ decodeFn text = .error k) →
        t.replies.head? = some (statusError k) ∧ t.regs.b = s.regs.b ∧ t.regs.blen = s.regs.blen))
end

