-- ==== Sys2Proof/Laws/Arith.lean ====
section
/-! SUPPORT. The arithmetic under the operations: values of lists of places (R68, R69), the fold's bounds (R144), the
digit accumulator (R31, R36), the repeated division (R142). -/

namespace Sys2Proof.Machine

/-! ### Lists of places -/

@[simp] theorem ofPlaces_nil (base : Nat) : ofPlaces base [] = 0 := rfl

/-- One more place on the right. -/
theorem ofPlaces_concat (base : Nat) (l : List Nat) (d : Nat) :
    ofPlaces base (l ++ [d]) = base * ofPlaces base l + d := by
  simp [ofPlaces, List.foldl_append]

/-- One more place on the left: it carries the highest power. -/
theorem ofPlaces_cons (base d : Nat) (l : List Nat) :
    ofPlaces base (d :: l) = d * base ^ l.length + ofPlaces base l := by
  induction l using List.reverseRecOn with
  | nil => simp [ofPlaces]
  | append_singleton l e ih =>
    rw [← List.cons_append, ofPlaces_concat, ih, ofPlaces_concat, List.length_append, List.length_singleton,
      pow_succ]
    ring

theorem ofPlaces_append (base : Nat) (l m : List Nat) :
    ofPlaces base (l ++ m) = ofPlaces base l * base ^ m.length + ofPlaces base m := by
  induction m using List.reverseRecOn with
  | nil => simp
  | append_singleton m e ih =>
    rw [← List.append_assoc, ofPlaces_concat, ih, ofPlaces_concat, List.length_append, List.length_singleton,
      pow_succ]
    ring

/-- Places below the base give a value below the base's power. -/
theorem ofPlaces_lt {base : Nat} (l : List Nat) (h : ∀ d ∈ l, d < base) : ofPlaces base l < base ^ l.length := by
  induction l using List.reverseRecOn with
  | nil => simp
  | append_singleton l e ih =>
    have he : e < base := h e (by simp)
    have hl := ih fun d hd => h d (by simp [hd])
    rw [ofPlaces_concat, List.length_append, List.length_singleton, pow_succ]
    calc base * ofPlaces base l + e < base * ofPlaces base l + base := by omega
      _ = base * (ofPlaces base l + 1) := by ring
      _ ≤ base * base ^ l.length := Nat.mul_le_mul_left _ hl
      _ = base ^ l.length * base := by ring

/-- A zero place on the left changes nothing. -/
theorem ofPlaces_zero_cons (base : Nat) (l : List Nat) : ofPlaces base (0 :: l) = ofPlaces base l := by
  rw [ofPlaces_cons]; simp

theorem bytesToNat_lt (b : Vector Byte 32) (n : Nat) (h : n ≤ 32) : bytesToNat b n < 256 ^ n := by
  have := ofPlaces_lt (base := 256) ((b.toList.take n).map BitVec.toNat) (by
    intro d hd
    obtain ⟨x, -, rfl⟩ := List.mem_map.mp hd
    exact x.isLt)
  simpa [bytesToNat, h] using this

theorem pow256_le {n : Nat} (h : n ≤ 32) : (256 : Nat) ^ n ≤ 2 ^ 256 := by
  calc (256 : Nat) ^ n ≤ 256 ^ 32 := Nat.pow_le_pow_right (by norm_num) h
    _ = 2 ^ 256 := by norm_num

/-- The 257 bits of `ACC` hold the loaded value (R94). -/
theorem ofNat257_of_lt {v : Nat} (h : v < 2 ^ 256) : (BitVec.ofNat 257 v).toNat = v := by
  rw [BitVec.toNat_ofNat]
  exact Nat.mod_eq_of_lt (by omega)

/-! ### The fold of a decode -/

theorem mulAdd62_toNat {a : Accum} {d : Digit} (ha : a.toNat < 62 ^ 42) (hd : d.toNat ≤ 61) :
    (mulAdd62 a d).toNat = 62 * a.toNat + d.toNat := by
  rw [mulAdd62, if_pos ⟨ha, hd⟩, BitVec.toNat_ofNat]
  apply Nat.mod_eq_of_lt
  simp only [Config.radix]
  omega

theorem pow62_le {m n : Nat} (h : m ≤ n) : (62 : Nat) ^ m ≤ 62 ^ n := Nat.pow_le_pow_right (by norm_num) h

/-- R144: one more digit, one more power of 62. -/
theorem mulAdd62_lt {a : Accum} {d : Digit} {k : Nat} (hk : k ≤ 42) (ha : a.toNat < 62 ^ k) (hd : d.toNat ≤ 61) :
    (mulAdd62 a d).toNat < 62 ^ (k + 1) := by
  rw [mulAdd62_toNat (lt_of_lt_of_le ha (pow62_le hk)) hd, pow_succ]
  omega

/-- `DIGIT` gives digits (R97). -/
theorem digitOf_le {ch : Byte} {d : Digit} (h : digitOf ch = some d) : d.toNat ≤ 61 := by
  revert d; revert ch; decide

/-- `DIGIT` inverts `ALPHA` on the digits (R97). -/
theorem digitOf_alpha {d : Digit} (h : d.toNat ≤ 61) : digitOf (alpha d) = some d := by
  revert d; decide

/-! ### The digit accumulator -/

theorem dsTake_set (ds : Vector Digit 43) {n : Nat} (h : n < 43) (d : Digit) :
    (ds.set n d h).toList.take (n + 1) = ds.toList.take n ++ [d] := by
  apply List.ext_getElem
  · simp; omega
  · intro i h1 h2
    simp at h1 h2
    by_cases e : i = n
    · subst e; simp
    · simp only [List.getElem_append, List.getElem_take, Vector.getElem_toList, Vector.getElem_set,
        List.length_take, Vector.length_toList, List.getElem_singleton]
      rw [if_neg (by omega), dif_pos (by omega)]

/-- Appending a digit at `DCNT` (R164). -/
theorem dsValue_set (ds : Vector Digit 43) {n : Nat} (h : n < 43) (d : Digit) :
    Safety.dsValue (ds.set n d h) (n + 1) = d.toNat * 62 ^ n + Safety.dsValue ds n := by
  rw [Safety.dsValue, dsTake_set, List.reverse_append, List.reverse_singleton, List.singleton_append,
    List.map_cons, ofPlaces_cons]
  simp only [Safety.dsValue, Config.radix, List.length_map, List.length_reverse, List.length_take,
    Vector.length_toList]
  rw [Nat.min_eq_left (by omega)]

/-! ### The repeated division -/

theorem remainders_succ (fuel a : Nat) : remainders (fuel + 1) a =
    a % 62 :: (if a / 62 = 0 then [] else remainders fuel (a / 62)) := rfl

/-- The value of the remainders, read back most significant first, is the number, once the fuel suffices. -/
theorem ofPlaces_remainders (fuel a : Nat) (h : a < 62 ^ fuel) (hf : 0 < fuel) :
    ofPlaces 62 (remainders fuel a).reverse = a := by
  induction fuel generalizing a with
  | zero => omega
  | succ fuel ih =>
    rw [remainders_succ, List.reverse_cons, ofPlaces_concat]
    split
    · next hq => simp; omega
    · next hq =>
      rw [ih (a / 62) (by rw [pow_succ] at h; omega) ?_]
      · omega
      · rcases fuel with _ | fuel
        · simp at h; omega
        · omega

theorem remainders_le (fuel a : Nat) : ∀ r ∈ remainders fuel a, r ≤ 61 := by
  induction fuel generalizing a with
  | zero => simp [remainders]
  | succ fuel ih =>
    intro r hr
    rw [remainders_succ, List.mem_cons] at hr
    rcases hr with rfl | hr
    · omega
    · split at hr
      · simp at hr
      · exact ih _ r hr

theorem remainders_length_le (fuel a : Nat) : (remainders fuel a).length ≤ fuel := by
  induction fuel generalizing a with
  | zero => simp [remainders]
  | succ fuel ih =>
    rw [remainders_succ, List.length_cons]
    split
    · simp
    · have := ih (a / 62); omega

/-- Fuel beyond what is needed changes nothing. -/
theorem remainders_fuel (f g a : Nat) (hf : a < 62 ^ f) (hf0 : 0 < f) (hg : f ≤ g) :
    remainders g a = remainders f a := by
  induction f generalizing a g with
  | zero => omega
  | succ f ih =>
    obtain ⟨g, rfl⟩ : ∃ k, g = k + 1 := ⟨g - 1, by omega⟩
    rw [remainders_succ, remainders_succ]
    by_cases hq : a / 62 = 0
    · rw [if_pos hq, if_pos hq]
    · rw [if_neg hq, if_neg hq, ih g (a / 62) (by rw [pow_succ] at hf; omega) ?_ (by omega)]
      rcases f with _ | f
      · simp at hf; omega
      · omega

theorem pow62_43 : (2 : Nat) ^ 256 < 62 ^ 43 := by norm_num

/-- The digits of a number below `2^256` name it (R142). -/
theorem ofPlaces_digitsOf {v : Nat} (h : v < 2 ^ 256) : ofPlaces 62 (digitsOf v).reverse = v :=
  ofPlaces_remainders 43 v (lt_trans h pow62_43) (by norm_num)

/-- One more division, for a number that has not been used up (R142, R165). -/
theorem digitsOf_step {v : Nat} (h : v < 2 ^ 256) :
    digitsOf v = v % 62 :: (if v / 62 = 0 then [] else digitsOf (v / 62)) := by
  rw [digitsOf, remainders_succ]
  split
  · rfl
  · rw [digitsOf, remainders_fuel 42 43 (v / 62) ?_ (by norm_num) (by norm_num)]
    have := lt_trans h pow62_43
    rw [show (43 : Nat) = 42 + 1 from rfl, pow_succ] at this
    omega

end Sys2Proof.Machine
end

