-- ==== Sys2Proof/Laws/Encoding.lean ====
section
/-! SUPPORT. The fields of a transaction word (30_encoding.md R102). -/

namespace Sys2Proof

@[simp] theorem txIsWrite_encodeWr (a : Offset) (v : Byte) : txIsWrite (encodeWr a v) = true := by
  simp [txIsWrite, encodeWr]

@[simp] theorem txOffset_encodeWr (a : Offset) (v : Byte) : txOffset (encodeWr a v) = a := by
  apply BitVec.eq_of_getLsbD_eq
  intro i hi
  simp only [txOffset, encodeWr, BitVec.getLsbD_extractLsb', BitVec.getLsbD_or, BitVec.getLsbD_shiftLeft,
    BitVec.getLsbD_setWidth]
  interval_cases i <;> simp

@[simp] theorem txValue_encodeWr (a : Offset) (v : Byte) : txValue (encodeWr a v) = v := by
  apply BitVec.eq_of_getLsbD_eq
  intro i hi
  simp only [txValue, encodeWr, BitVec.getLsbD_extractLsb', BitVec.getLsbD_or, BitVec.getLsbD_shiftLeft,
    BitVec.getLsbD_setWidth]
  interval_cases i <;> simp

@[simp] theorem txIsWrite_encodeRd (a : Offset) : txIsWrite (encodeRd a) = false := by
  simp [txIsWrite, encodeRd]

@[simp] theorem txOffset_encodeRd (a : Offset) : txOffset (encodeRd a) = a := by
  apply BitVec.eq_of_getLsbD_eq
  intro i hi
  simp only [txOffset, encodeRd, BitVec.getLsbD_extractLsb', BitVec.getLsbD_shiftLeft, BitVec.getLsbD_setWidth]
  interval_cases i <;> simp

/-- A line `WR a, v` reads back as that write (R102). -/
theorem decodeTx_encodeWr (a : Offset) (v : Byte) : decodeTx (encodeWr a v) = .wr a v := by
  simp [decodeTx]

/-- A line `RD a` reads back as that read (R102). -/
theorem decodeTx_encodeRd (a : Offset) : decodeTx (encodeRd a) = .rd a := by
  simp [decodeTx]

end Sys2Proof
end

