-- ==== Sys2Proof/Laws/State.lean ====
section
/-! SUPPORT. One lemma per field per update, each true by definition, so that no proof unfolds a record update. -/

namespace Sys2Proof.Machine

/-! ### `State` -/

@[simp] theorem State.setRegs_regs (s : State) (r : Regs) : (s.setRegs r).regs = r := rfl
@[simp] theorem State.setRegs_script (s : State) (r : Regs) : (s.setRegs r).script = s.script := rfl
@[simp] theorem State.setRegs_replies (s : State) (r : Regs) : (s.setRegs r).replies = s.replies := rfl
@[simp] theorem State.reply_regs (s : State) (v : Byte) : (s.reply v).regs = s.regs := rfl
@[simp] theorem State.reply_script (s : State) (v : Byte) : (s.reply v).script = s.script := rfl
@[simp] theorem State.reply_replies (s : State) (v : Byte) : (s.reply v).replies = v :: s.replies := rfl
@[simp] theorem State.applyReset_regs (s : State) : s.applyReset.regs = Regs.reset := rfl
@[simp] theorem State.applyReset_script (s : State) : s.applyReset.script = s.script := rfl
@[simp] theorem State.applyReset_replies (s : State) : s.applyReset.replies = s.replies := rfl
@[simp] theorem State.setRegs_self (s : State) : s.setRegs s.regs = s := rfl

/-! ### `Regs.raise` -/

@[simp] theorem Regs.raise_b (r : Regs) (k : ErrKind) : (r.raise k).b = r.b := rfl
@[simp] theorem Regs.raise_blen (r : Regs) (k : ErrKind) : (r.raise k).blen = r.blen := rfl
@[simp] theorem Regs.raise_clen (r : Regs) (k : ErrKind) : (r.raise k).clen = r.clen := rfl
@[simp] theorem Regs.raise_status (r : Regs) (k : ErrKind) : (r.raise k).status = statusError k := rfl
@[simp] theorem Regs.raise_c (r : Regs) (k : ErrKind) : (r.raise k).c = r.c := rfl
@[simp] theorem Regs.raise_ph (r : Regs) (k : ErrKind) : (r.raise k).ph = Config.phIdle := rfl
@[simp] theorem Regs.raise_acc (r : Regs) (k : ErrKind) : (r.raise k).acc = r.acc := rfl
@[simp] theorem Regs.raise_ds (r : Regs) (k : ErrKind) : (r.raise k).ds = r.ds := rfl
@[simp] theorem Regs.raise_dcnt (r : Regs) (k : ErrKind) : (r.raise k).dcnt = r.dcnt := rfl
@[simp] theorem Regs.raise_idx (r : Regs) (k : ErrKind) : (r.raise k).idx = r.idx := rfl

/-! ### `Regs.complete` -/

@[simp] theorem Regs.complete_b (r : Regs) : (r.complete).b = r.b := rfl
@[simp] theorem Regs.complete_blen (r : Regs) : (r.complete).blen = r.blen := rfl
@[simp] theorem Regs.complete_clen (r : Regs) : (r.complete).clen = r.clen := rfl
@[simp] theorem Regs.complete_status (r : Regs) : (r.complete).status = statusSuccess := rfl
@[simp] theorem Regs.complete_c (r : Regs) : (r.complete).c = r.c := rfl
@[simp] theorem Regs.complete_ph (r : Regs) : (r.complete).ph = Config.phIdle := rfl
@[simp] theorem Regs.complete_acc (r : Regs) : (r.complete).acc = r.acc := rfl
@[simp] theorem Regs.complete_ds (r : Regs) : (r.complete).ds = r.ds := rfl
@[simp] theorem Regs.complete_dcnt (r : Regs) : (r.complete).dcnt = r.dcnt := rfl
@[simp] theorem Regs.complete_idx (r : Regs) : (r.complete).idx = r.idx := rfl

/-! ### `Regs.loadEnc` -/

@[simp] theorem Regs.loadEnc_b (r : Regs) : (r.loadEnc).b = r.b := rfl
@[simp] theorem Regs.loadEnc_blen (r : Regs) : (r.loadEnc).blen = r.blen := rfl
@[simp] theorem Regs.loadEnc_clen (r : Regs) : (r.loadEnc).clen = r.clen := rfl
@[simp] theorem Regs.loadEnc_status (r : Regs) : (r.loadEnc).status = statusInFlight := rfl
@[simp] theorem Regs.loadEnc_c (r : Regs) : (r.loadEnc).c = r.c := rfl
@[simp] theorem Regs.loadEnc_ph (r : Regs) : (r.loadEnc).ph = Config.phEncDiv := rfl
@[simp] theorem Regs.loadEnc_acc (r : Regs) : (r.loadEnc).acc = BitVec.ofNat 257 (bytesToNat r.b r.blen.toNat) := rfl
@[simp] theorem Regs.loadEnc_ds (r : Regs) : (r.loadEnc).ds = r.ds := rfl
@[simp] theorem Regs.loadEnc_dcnt (r : Regs) : (r.loadEnc).dcnt = 0#6 := rfl
@[simp] theorem Regs.loadEnc_idx (r : Regs) : (r.loadEnc).idx = 0#6 := rfl

/-! ### `Regs.startDec` -/

@[simp] theorem Regs.startDec_b (r : Regs) : (r.startDec).b = r.b := rfl
@[simp] theorem Regs.startDec_blen (r : Regs) : (r.startDec).blen = r.blen := rfl
@[simp] theorem Regs.startDec_clen (r : Regs) : (r.startDec).clen = r.clen := rfl
@[simp] theorem Regs.startDec_status (r : Regs) : (r.startDec).status = statusInFlight := rfl
@[simp] theorem Regs.startDec_c (r : Regs) : (r.startDec).c = r.c := rfl
@[simp] theorem Regs.startDec_ph (r : Regs) : (r.startDec).ph = (if r.clen = 0#8 then Config.phDecChk else Config.phDecMac) := rfl
@[simp] theorem Regs.startDec_acc (r : Regs) : (r.startDec).acc = 0#257 := rfl
@[simp] theorem Regs.startDec_ds (r : Regs) : (r.startDec).ds = r.ds := rfl
@[simp] theorem Regs.startDec_dcnt (r : Regs) : (r.startDec).dcnt = 0#6 := rfl
@[simp] theorem Regs.startDec_idx (r : Regs) : (r.startDec).idx = 0#6 := rfl

end Sys2Proof.Machine
end

