-- ==== Sys2Proof/Laws/Ops.lean ====
section
/-! SUPPORT. What each shared operation can do, said once: the gates, the buffer entries, the register space. -/

namespace Sys2Proof.Machine

/-! ### The busy gate (R64) -/

theorem Regs.idle_iff (r : Regs) : r.idle = true ↔ r.ph = Config.phIdle := by simp [Regs.idle]

theorem Regs.idle_eq_true {r : Regs} (h : r.ph = Config.phIdle) : r.idle = true := r.idle_iff.mpr h

theorem Regs.idle_eq_false {r : Regs} (h : r.ph ≠ Config.phIdle) : r.idle = false := by
  simpa [Regs.idle] using h

theorem Regs.gated_idle {r : Regs} (h : r.ph = Config.phIdle) (f : Regs → Regs) : r.gated f = f r := by
  simp [Regs.gated, Regs.idle_eq_true h]

theorem Regs.gated_busy {r : Regs} (h : r.ph ≠ Config.phIdle) (f : Regs → Regs) : r.gated f = r := by
  simp [Regs.gated, Regs.idle_eq_false h]

/-- A gated change either happens, with `PH = IDLE`, or changes nothing. -/
theorem Regs.gated_cases (r : Regs) (f : Regs → Regs) :
    (r.ph = Config.phIdle ∧ r.gated f = f r) ∨ (r.ph ≠ Config.phIdle ∧ r.gated f = r) := by
  by_cases h : r.ph = Config.phIdle
  · exact .inl ⟨h, Regs.gated_idle h f⟩
  · exact .inr ⟨h, Regs.gated_busy h f⟩

theorem Regs.hostRead_idle {r : Regs} (h : r.ph = Config.phIdle) (a : Offset) : r.hostRead a = r.peek a := by
  simp [Regs.hostRead, Regs.idle_eq_true h]

theorem Regs.hostRead_busy {r : Regs} (h : r.ph ≠ Config.phIdle) (a : Offset) :
    r.hostRead a = if a = Config.statusOffset then r.status else 0#8 := by
  simp [Regs.hostRead, Regs.idle_eq_false h]

theorem Regs.peek_status (r : Regs) : r.peek Config.statusOffset = r.status := by
  simp [Regs.peek, Config.statusOffset, Config.blenOffset, Config.clenOffset]

/-- `STATUS` is read as it stands in every phase (R26, R64). -/
theorem Regs.hostRead_status (r : Regs) : r.hostRead Config.statusOffset = r.status := by
  by_cases h : r.ph = Config.phIdle
  · rw [Regs.hostRead_idle h, Regs.peek_status]
  · rw [Regs.hostRead_busy h, if_pos rfl]

/-! ### Entries of `DS` and `C` -/

theorem Regs.setDigit_of_lt (r : Regs) {k : Nat} (h : k < 43) (d : Digit) :
    r.setDigit k d = some { r with ds := r.ds.set k d h } := dif_pos h

theorem Regs.setDigit_of_ge (r : Regs) {k : Nat} (h : 43 ≤ k) (d : Digit) : r.setDigit k d = none :=
  dif_neg (by omega)

theorem Regs.setDigit_eq_some {r r' : Regs} {k : Nat} {d : Digit} (e : r.setDigit k d = some r') :
    ∃ h : k < 43, r' = { r with ds := r.ds.set k d h } := by
  by_cases h : k < 43
  · rw [r.setDigit_of_lt h] at e
    exact ⟨h, (Option.some.inj e).symm⟩
  · rw [r.setDigit_of_ge (by omega)] at e
    cases e

theorem Regs.setChar_of_lt (r : Regs) {j : Nat} (h : j < 43) (v : Byte) :
    r.setChar j v = some { r with c := r.c.set j v h } := dif_pos h

theorem Regs.setChar_of_ge (r : Regs) {j : Nat} (h : 43 ≤ j) (v : Byte) : r.setChar j v = none :=
  dif_neg (by omega)

theorem Regs.setChar_eq_some {r r' : Regs} {j : Nat} {v : Byte} (e : r.setChar j v = some r') :
    ∃ h : j < 43, r' = { r with c := r.c.set j v h } := by
  by_cases h : j < 43
  · rw [r.setChar_of_lt h] at e
    exact ⟨h, (Option.some.inj e).symm⟩
  · rw [r.setChar_of_ge (by omega)] at e
    cases e

theorem Regs.digitAt_of_lt (r : Regs) {k : Nat} (h : k < 43) : r.digitAt k = some r.ds[k] := by
  simp [Regs.digitAt, h]

theorem Regs.digitAt_of_ge (r : Regs) {k : Nat} (h : 43 ≤ k) : r.digitAt k = none := by
  simp [Regs.digitAt, h]

theorem Regs.digitAt_eq_some {r : Regs} {k : Nat} {d : Digit} (e : r.digitAt k = some d) :
    ∃ h : k < 43, d = r.ds[k] := by
  by_cases h : k < 43
  · rw [r.digitAt_of_lt h] at e
    exact ⟨h, (Option.some.inj e).symm⟩
  · rw [r.digitAt_of_ge (by omega)] at e
    cases e

theorem Regs.charAt_of_lt (r : Regs) {j : Nat} (h : j < 43) : r.charAt j = some r.c[j] := by
  simp [Regs.charAt, h]

theorem Regs.charAt_of_ge (r : Regs) {j : Nat} (h : 43 ≤ j) : r.charAt j = none := by
  simp [Regs.charAt, h]

theorem Regs.charAt_eq_some {r : Regs} {j : Nat} {v : Byte} (e : r.charAt j = some v) :
    ∃ h : j < 43, v = r.c[j] := by
  by_cases h : j < 43
  · rw [r.charAt_of_lt h] at e
    exact ⟨h, (Option.some.inj e).symm⟩
  · rw [r.charAt_of_ge (by omega)] at e
    cases e

/-! ### The register space -/

/-- The location an offset names (R61). -/
theorem offset_cases (a : Offset) :
    a.toNat < 32 ∨ a = Config.blenOffset ∨ a = Config.clenOffset ∨ a = Config.cmdOffset ∨
    a = Config.statusOffset ∨ (36 ≤ a.toNat ∧ a.toNat < 64) ∨
    (∃ j, j < 43 ∧ a.toNat = 64 + j) ∨ (107 ≤ a.toNat ∧ a.toNat < 128) := by
  have h := a.isLt
  have e : ∀ n (_ : n < 128), a.toNat = n → a = BitVec.ofNat 7 n := by
    intro n hn he
    apply BitVec.eq_of_toNat_eq
    rw [BitVec.toNat_ofNat, he, Nat.mod_eq_of_lt hn]
  by_cases h0 : a.toNat < 32
  · exact .inl h0
  by_cases h1 : a.toNat = 32
  · exact .inr (.inl (e 32 (by omega) h1))
  by_cases h2 : a.toNat = 33
  · exact .inr (.inr (.inl (e 33 (by omega) h2)))
  by_cases h3 : a.toNat = 34
  · exact .inr (.inr (.inr (.inl (e 34 (by omega) h3))))
  by_cases h4 : a.toNat = 35
  · exact .inr (.inr (.inr (.inr (.inl (e 35 (by omega) h4)))))
  by_cases h5 : a.toNat < 64
  · exact .inr (.inr (.inr (.inr (.inr (.inl (by omega))))))
  by_cases h6 : a.toNat < 107
  · exact .inr (.inr (.inr (.inr (.inr (.inr (.inl ⟨a.toNat - 64, by omega, by omega⟩))))))
  · exact .inr (.inr (.inr (.inr (.inr (.inr (.inr (by omega)))))))

theorem Regs.peek_b (r : Regs) {a : Offset} (h : a.toNat < 32) : r.peek a = r.b[a.toNat] := dif_pos h

theorem Regs.peek_blen (r : Regs) : r.peek Config.blenOffset = r.blen := by
  simp [Regs.peek, Config.blenOffset]

theorem Regs.peek_clen (r : Regs) : r.peek Config.clenOffset = r.clen := by
  simp [Regs.peek, Config.blenOffset, Config.clenOffset]

theorem Regs.peek_cmd (r : Regs) : r.peek Config.cmdOffset = 0#8 := by
  simp [Regs.peek, Config.blenOffset, Config.clenOffset, Config.cmdOffset, Config.statusOffset, Config.cBase]

/-- Offsets above `STATUS` are `C` or reserved. -/
theorem Regs.peek_high (r : Regs) {a : Offset} (h : 36 ≤ a.toNat) :
    r.peek a = if h : Config.cBase ≤ a.toNat ∧ a.toNat - Config.cBase < 43 then
      r.c[a.toNat - Config.cBase]'h.2 else 0#8 := by
  have ne : ∀ n, n < 36 → a ≠ BitVec.ofNat 7 n := by
    rintro n hn rfl
    rw [BitVec.toNat_ofNat, Nat.mod_eq_of_lt (by omega)] at h
    omega
  rw [Regs.peek, dif_neg (by omega), if_neg (ne 32 (by omega)), if_neg (ne 33 (by omega)),
    if_neg (ne 35 (by omega))]

theorem Regs.peek_c (r : Regs) {a : Offset} {j : Nat} (hj : j < 43) (h : a.toNat = 64 + j) :
    r.peek a = r.c[j] := by
  rw [r.peek_high (by omega), dif_pos (by simp only [Config.cBase]; omega)]
  simp [Config.cBase, h]

/-- A reserved offset reads 0x00 (R65). -/
theorem Regs.peek_reserved (r : Regs) {a : Offset}
    (h : (36 ≤ a.toNat ∧ a.toNat < 64) ∨ 107 ≤ a.toNat) : r.peek a = 0#8 := by
  rw [r.peek_high (by omega), dif_neg (by simp only [Config.cBase]; omega)]

/-- Two register sets that agree on the host-visible registers read alike. -/
theorem Regs.peek_congr {r r' : Regs} (h : r.view = r'.view) (a : Offset) : r.peek a = r'.peek a := by
  simp only [Regs.view, HostView.mk.injEq] at h
  obtain ⟨hb, hl, hc, hs, hC⟩ := h
  simp only [Regs.peek, hb, hl, hc, hs, hC]

theorem Regs.poke_b (r : Regs) {a : Offset} (h : a.toNat < 32) (v : Byte) :
    r.poke a v = { r with b := r.b.set a.toNat v h } := dif_pos h

theorem Regs.poke_blen (r : Regs) (v : Byte) : r.poke Config.blenOffset v = { r with blen := v } := by
  simp [Regs.poke, Config.blenOffset]

theorem Regs.poke_clen (r : Regs) (v : Byte) : r.poke Config.clenOffset v = { r with clen := v } := by
  simp [Regs.poke, Config.blenOffset, Config.clenOffset]

theorem Regs.poke_status (r : Regs) (v : Byte) : r.poke Config.statusOffset v = r := by
  simp [Regs.poke, Config.blenOffset, Config.clenOffset, Config.statusOffset, Config.cBase]

theorem Regs.poke_high (r : Regs) {a : Offset} (h : 36 ≤ a.toNat) (v : Byte) :
    r.poke a v = if h : Config.cBase ≤ a.toNat ∧ a.toNat - Config.cBase < 43 then
      { r with c := r.c.set (a.toNat - Config.cBase) v h.2 } else r := by
  have ne : ∀ n, n < 36 → a ≠ BitVec.ofNat 7 n := by
    rintro n hn rfl
    rw [BitVec.toNat_ofNat, Nat.mod_eq_of_lt (by omega)] at h
    omega
  rw [Regs.poke, dif_neg (by omega), if_neg (ne 32 (by omega)), if_neg (ne 33 (by omega))]

theorem Regs.poke_c (r : Regs) {a : Offset} {j : Nat} (hj : j < 43) (h : a.toNat = 64 + j) (v : Byte) :
    r.poke a v = { r with c := r.c.set j v } := by
  rw [r.poke_high (by omega), dif_pos (by simp only [Config.cBase]; omega)]
  simp [Config.cBase, h]

/-- A reserved offset ignores writes (R65). -/
theorem Regs.poke_reserved (r : Regs) {a : Offset}
    (h : (36 ≤ a.toNat ∧ a.toNat < 64) ∨ 107 ≤ a.toNat) (v : Byte) : r.poke a v = r := by
  rw [r.poke_high (by omega), dif_neg (by simp only [Config.cBase]; omega)]

/-- Everything a plain store can do: it changes one of `B`, `BLEN`, `CLEN`, `C`, and nothing else. -/
theorem Regs.poke_cases (r : Regs) (a : Offset) (v : Byte) :
    (∃ h : a.toNat < 32, r.poke a v = { r with b := r.b.set a.toNat v h }) ∨
    (a = Config.blenOffset ∧ r.poke a v = { r with blen := v }) ∨
    (a = Config.clenOffset ∧ r.poke a v = { r with clen := v }) ∨
    (∃ j, ∃ h : j < 43, a.toNat = 64 + j ∧ r.poke a v = { r with c := r.c.set j v h }) ∨
    r.poke a v = r := by
  rcases offset_cases a with h | rfl | rfl | rfl | rfl | h | ⟨j, hj, h⟩ | h
  · exact .inl ⟨h, r.poke_b h v⟩
  · exact .inr (.inl ⟨rfl, r.poke_blen v⟩)
  · exact .inr (.inr (.inl ⟨rfl, r.poke_clen v⟩))
  · refine .inr (.inr (.inr (.inr ?_)))
    simp [Regs.poke, Config.blenOffset, Config.clenOffset, Config.cmdOffset, Config.cBase]
  · exact .inr (.inr (.inr (.inr (r.poke_status v))))
  · exact .inr (.inr (.inr (.inr (r.poke_reserved (.inl h) v))))
  · exact .inr (.inr (.inr (.inl ⟨j, hj, h, r.poke_c hj h v⟩)))
  · exact .inr (.inr (.inr (.inr (r.poke_reserved (.inr h.1) v))))

/-! ### Acceptance (R121) -/

/-- Everything `accept_ENC` can do (R162, R163). -/
theorem Regs.acceptEnc_cases (r : Regs) :
    (32 < r.blen.toNat ∧ r.acceptEnc = r.raise .invalidLength) ∨
    (r.blen.toNat ≤ 32 ∧ r.acceptEnc = r.loadEnc) := by
  by_cases h : 32 < r.blen.toNat
  · exact .inl ⟨h, if_pos h⟩
  · exact .inr ⟨by omega, if_neg h⟩

/-- Everything `accept_DEC` can do (R192, R194). -/
theorem Regs.acceptDec_cases (r : Regs) :
    (43 < r.clen.toNat ∧ r.acceptDec = r.raise .invalidLength) ∨
    (r.clen.toNat ≤ 43 ∧ r.acceptDec = r.startDec) := by
  by_cases h : 43 < r.clen.toNat
  · exact .inl ⟨h, if_pos h⟩
  · exact .inr ⟨by omega, if_neg h⟩

/-- Everything an accepted write of `CMD` can do (R121, R125). -/
theorem Regs.accept_cases (r : Regs) (v : Byte) :
    (v = Config.opEnc ∧ r.accept v = r.acceptEnc) ∨ (v = Config.opDec ∧ r.accept v = r.acceptDec) ∨
    (v ≠ Config.opEnc ∧ v ≠ Config.opDec ∧ r.accept v = r.raise .illegalCommand) := by
  unfold Regs.accept
  split
  · exact .inl ⟨‹_›, rfl⟩
  · split
    · exact .inr (.inl ⟨‹_›, rfl⟩)
    · exact .inr (.inr ⟨‹_›, ‹_›, rfl⟩)

end Sys2Proof.Machine
end

