-- ==== Sys2Proof/Laws/Exec.lean ====
section
/-! SUPPORT. Everything a meaning, and a step, can do when it answers a next state: one inversion lemma each. -/

namespace Sys2Proof.Machine

theorem execEnc_cases {s t : State} (e : execEnc s = .next t) :
    (s.regs.ph = Config.phIdle ∧ t = s.setRegs s.regs.acceptEnc) ∨ (s.regs.ph ≠ Config.phIdle ∧ t = s) := by
  cases e
  rcases s.regs.gated_cases Regs.acceptEnc with ⟨h, g⟩ | ⟨h, g⟩
  · exact .inl ⟨h, by rw [g]⟩
  · exact .inr ⟨h, by rw [g, State.setRegs_self]⟩

theorem execDec_cases {s t : State} (e : execDec s = .next t) :
    (s.regs.ph = Config.phIdle ∧ t = s.setRegs s.regs.acceptDec) ∨ (s.regs.ph ≠ Config.phIdle ∧ t = s) := by
  cases e
  rcases s.regs.gated_cases Regs.acceptDec with ⟨h, g⟩ | ⟨h, g⟩
  · exact .inl ⟨h, by rw [g]⟩
  · exact .inr ⟨h, by rw [g, State.setRegs_self]⟩

theorem execWr_cases {s t : State} {a : Offset} {v : Byte} (e : execWr a v s = .next t) :
    (s.regs.ph = Config.phIdle ∧ a = Config.cmdOffset ∧ t = s.setRegs (s.regs.accept v)) ∨
    (s.regs.ph = Config.phIdle ∧ a ≠ Config.cmdOffset ∧ t = s.setRegs (s.regs.poke a v)) ∨
    (s.regs.ph ≠ Config.phIdle ∧ t = s) := by
  cases e
  rcases s.regs.gated_cases (fun r => r.idleWrite a v) with ⟨h, g⟩ | ⟨h, g⟩
  · rw [g]
    by_cases ha : a = Config.cmdOffset
    · exact .inl ⟨h, ha, by rw [Regs.idleWrite, if_pos ha]⟩
    · exact .inr (.inl ⟨h, ha, by rw [Regs.idleWrite, if_neg ha]⟩)
  · exact .inr (.inr ⟨h, by rw [g, State.setRegs_self]⟩)

theorem execRd_cases {s t : State} {a : Offset} (e : execRd a s = .next t) :
    t = s.reply (s.regs.hostRead a) := by cases e; rfl

/-- The quotient and the remainder of one `ENC_DIV`, on the low 256 bits of `ACC` (R165). -/
theorem divMod62_acc (a : Accum) :
    (divMod62 (a.extractLsb' 0 256)).1.toNat = a.toNat % 2 ^ 256 / 62 ∧
    (divMod62 (a.extractLsb' 0 256)).2.toNat = a.toNat % 2 ^ 256 % 62 := by
  have h : (a.extractLsb' 0 256).toNat = a.toNat % 2 ^ 256 := by simp
  have lt : a.toNat % 2 ^ 256 < 2 ^ 256 := Nat.mod_lt _ (by norm_num)
  simp only [divMod62, Config.radix, BitVec.toNat_ofNat, h]
  constructor
  · exact Nat.mod_eq_of_lt (by omega)
  · exact Nat.mod_eq_of_lt (by omega)

theorem execEncDiv_cases {s t : State} (e : execEncDiv s = .next t) :
    ∃ (h : s.regs.dcnt.toNat < 43) (q : BitVec 256) (d : Digit),
      q.toNat = s.regs.acc.toNat % 2 ^ 256 / 62 ∧ d.toNat = s.regs.acc.toNat % 2 ^ 256 % 62 ∧
      t = s.setRegs { s.regs with
        ds := s.regs.ds.set s.regs.dcnt.toNat d h
        dcnt := s.regs.dcnt + 1#6
        acc := q.setWidth 257
        idx := if q = 0#256 then 0#6 else s.regs.idx
        ph := if q = 0#256 then Config.phEncRev else s.regs.ph } := by
  obtain ⟨hq, hd⟩ := divMod62_acc s.regs.acc
  by_cases h : s.regs.dcnt.toNat < 43
  · refine ⟨h, _, _, hq, hd, ?_⟩
    simp only [execEncDiv, s.regs.setDigit_of_lt h] at e
    cases e
    rfl
  · simp only [execEncDiv, s.regs.setDigit_of_ge (by omega : 43 ≤ s.regs.dcnt.toNat)] at e
    cases e

theorem execEncRev_cases {s t : State} (e : execEncRev s = .next t) :
    ∃ (_ : s.regs.idx.toNat < s.regs.dcnt.toNat) (hk : s.regs.dcnt.toNat - 1 - s.regs.idx.toNat < 43)
      (hj : s.regs.idx.toNat < 43) (c' : Vector Byte 43),
      c' = s.regs.c.set s.regs.idx.toNat (alpha (s.regs.ds[s.regs.dcnt.toNat - 1 - s.regs.idx.toNat]'hk)) hj ∧
      ((s.regs.idx.toNat + 1 = s.regs.dcnt.toNat ∧
          t = s.setRegs { s.regs with
            c := c', idx := s.regs.idx + 1#6, clen := s.regs.dcnt.setWidth 8 }.complete) ∨
        (s.regs.idx.toNat + 1 ≠ s.regs.dcnt.toNat ∧
          t = s.setRegs { s.regs with c := c', idx := s.regs.idx + 1#6 })) := by
  unfold execEncRev at e
  simp only at e
  split at e
  · next hlt =>
    split at e
    · cases e
    · next d hd =>
      obtain ⟨hk, rfl⟩ := Regs.digitAt_eq_some hd
      split at e
      · cases e
      · next r' hr =>
        obtain ⟨hj, rfl⟩ := Regs.setChar_eq_some hr
        refine ⟨hlt, hk, hj, _, rfl, ?_⟩
        split at e
        · exact .inl ⟨‹_›, (Host.Outcome.next.inj e).symm⟩
        · exact .inr ⟨‹_›, (Host.Outcome.next.inj e).symm⟩
  · cases e

theorem execDecMac_cases {s t : State} (e : execDecMac s = .next t) :
    ∃ h : s.regs.idx.toNat < 43,
      (digitOf s.regs.c[s.regs.idx.toNat] = none ∧ t = s.setRegs (s.regs.raise .invalidCharacter)) ∨
      ∃ d, digitOf s.regs.c[s.regs.idx.toNat] = some d ∧
        t = s.setRegs { s.regs with
          acc := mulAdd62 s.regs.acc d
          idx := s.regs.idx + 1#6
          ph := if s.regs.idx.toNat + 1 = s.regs.clen.toNat then Config.phDecChk else s.regs.ph } := by
  unfold execDecMac at e
  simp only at e
  split at e
  · cases e
  · next ch hch =>
    obtain ⟨h, rfl⟩ := Regs.charAt_eq_some hch
    refine ⟨h, ?_⟩
    split at e
    · next hd => exact .inl ⟨hd, (Host.Outcome.next.inj e).symm⟩
    · next d hd => exact .inr ⟨d, hd, (Host.Outcome.next.inj e).symm⟩

theorem execDecChk_cases {s t : State} (e : execDecChk s = .next t) :
    (s.regs.acc.getLsbD 256 = true ∧ t = s.setRegs (s.regs.raise .overflow)) ∨
    (s.regs.acc.getLsbD 256 = false ∧
      t = s.setRegs { s.regs with b := accToBytes s.regs.acc, blen := 32#8 }.complete) := by
  unfold execDecChk at e
  simp only at e
  split at e
  · next h => exact .inl ⟨h, (Host.Outcome.next.inj e).symm⟩
  · next h => exact .inr ⟨by simpa using h, (Host.Outcome.next.inj e).symm⟩

/-! ### The step -/

/-- What a host line runs: a command, a plain write or a read (R101, R121). -/
theorem hostInstr_cases (w : TxWord) :
    (txIsWrite w = true ∧ txOffset w = Config.cmdOffset ∧ txValue w = Config.opEnc ∧ hostInstr w = .enc) ∨
    (txIsWrite w = true ∧ txOffset w = Config.cmdOffset ∧ txValue w = Config.opDec ∧ hostInstr w = .dec) ∨
    (txIsWrite w = true ∧
      ¬(txOffset w = Config.cmdOffset ∧ (txValue w = Config.opEnc ∨ txValue w = Config.opDec)) ∧
      hostInstr w = .wr (txOffset w) (txValue w)) ∨
    (txIsWrite w = false ∧ hostInstr w = .rd (txOffset w)) := by
  by_cases hw : txIsWrite w = true
  · by_cases ha : txOffset w = Config.cmdOffset
    · by_cases h1 : txValue w = Config.opEnc
      · exact .inl ⟨hw, ha, h1, by simp [hostInstr, decodeTx, hw, commandName, decodeCommand, ha, h1]⟩
      · by_cases h2 : txValue w = Config.opDec
        · exact .inr (.inl ⟨hw, ha, h2, by
            rw [hostInstr, decodeTx, if_pos hw, ha, h2]; rfl⟩)
        · exact .inr (.inr (.inl ⟨hw, fun h => h.2.elim h1 h2, by
            simp [hostInstr, decodeTx, hw, commandName, decodeCommand, ha, h1, h2]⟩))
    · exact .inr (.inr (.inl ⟨hw, fun h => ha h.1, by simp [hostInstr, decodeTx, hw, commandName, ha]⟩))
  · exact .inr (.inr (.inr ⟨by simpa using hw, by simp [hostInstr, decodeTx, hw, commandName]⟩))

/-- The step `PH` selects (R100). -/
theorem decodePhase_cases (p : Phase) :
    (p = Config.phEncDiv ∧ decode (.ph3 p) = .ok .encDiv) ∨ (p = Config.phEncRev ∧ decode (.ph3 p) = .ok .encRev) ∨
    (p = Config.phDecMac ∧ decode (.ph3 p) = .ok .decMac) ∨ (p = Config.phDecChk ∧ decode (.ph3 p) = .ok .decChk) ∨
    (p = Config.phIdle ∧ decode (.ph3 p) = .error .idlePhase) ∨
    (5 ≤ p.toNat ∧ decode (.ph3 p) = .error (.unusedPhase p)) := by
  revert p; decide

/-- A turn of the core (R122): the selected step, or nothing. -/
theorem coreTurn_cases (s : State) :
    (s.regs.ph = Config.phEncDiv ∧ coreTurn s = .run .encDiv s) ∨
    (s.regs.ph = Config.phEncRev ∧ coreTurn s = .run .encRev s) ∨
    (s.regs.ph = Config.phDecMac ∧ coreTurn s = .run .decMac s) ∨
    (s.regs.ph = Config.phDecChk ∧ coreTurn s = .run .decChk s) ∨
    ((s.regs.ph = Config.phIdle ∨ 5 ≤ s.regs.ph.toNat) ∧ coreTurn s = .quiet s) := by
  rcases decodePhase_cases s.regs.ph with ⟨h, e⟩ | ⟨h, e⟩ | ⟨h, e⟩ | ⟨h, e⟩ | ⟨h, e⟩ | ⟨h, e⟩
  · exact .inl ⟨h, by rw [coreTurn, e]⟩
  · exact .inr (.inl ⟨h, by rw [coreTurn, e]⟩)
  · exact .inr (.inr (.inl ⟨h, by rw [coreTurn, e]⟩))
  · exact .inr (.inr (.inr (.inl ⟨h, by rw [coreTurn, e]⟩)))
  · exact .inr (.inr (.inr (.inr ⟨.inl h, by rw [coreTurn, e]⟩)))
  · exact .inr (.inr (.inr (.inr ⟨.inr h, by rw [coreTurn, e]⟩)))

/-- What a step did, told apart by the move that was taken; `u` is the state before it with the script moved on. -/
inductive StepCase (s u t : State) : Prop where
  | encDiv (h : s.regs.ph = Config.phEncDiv) (e : execEncDiv u = .next t)
  | encRev (h : s.regs.ph = Config.phEncRev) (e : execEncRev u = .next t)
  | decMac (h : s.regs.ph = Config.phDecMac) (e : execDecMac u = .next t)
  | decChk (h : s.regs.ph = Config.phDecChk) (e : execDecChk u = .next t)
  | noStep (h : s.regs.ph = Config.phIdle ∨ 5 ≤ s.regs.ph.toNat) (e : t = u)
  | access (w : TxWord) (h : s.script.head? = some (.access w)) (e : exec (hostInstr w) u = .next t)
  | macroRead (a : Offset) (h : s.script.head? ∈ [some .poll, some .getC, some .test])
      (e : t = u.reply (s.regs.hostRead a))
  | reset (h : s.script.head? = some .reset) (e : t = u.applyReset)

theorem coreTurn_perform_cases {s u t : State} (hr : u.regs = s.regs) (e : (coreTurn u).perform = .next t) :
    StepCase s u t := by
  rcases coreTurn_cases u with ⟨h, c⟩ | ⟨h, c⟩ | ⟨h, c⟩ | ⟨h, c⟩ | ⟨h, c⟩ <;> rw [c] at e <;> rw [hr] at h
  · exact .encDiv h e
  · exact .encRev h e
  · exact .decMac h e
  · exact .decChk h e
  · exact .noStep h (Host.Outcome.next.inj e).symm

/-- Everything a step can do when it answers a next state. -/
theorem step_cases {s t : State} (e : step s = .next t) :
    ∃ u : State, u.regs = s.regs ∧ u.replies = s.replies ∧ StepCase s u t := by
  obtain ⟨r, sc, rp⟩ := s
  cases sc with
  | nil => exact ⟨_, rfl, rfl, coreTurn_perform_cases rfl e⟩
  | cons m rest =>
    cases m with
    | core => exact ⟨⟨r, rest, rp⟩, rfl, rfl, coreTurn_perform_cases rfl e⟩
    | access w => exact ⟨⟨r, rest, rp⟩, rfl, rfl, .access w rfl e⟩
    | poll => exact ⟨⟨r, afterPoll r rest, rp⟩, rfl, rfl, .macroRead _ (by simp) (execRd_cases e)⟩
    | getC => exact ⟨⟨r, afterGetC r rest, rp⟩, rfl, rfl, .macroRead _ (by simp) (execRd_cases e)⟩
    | test => exact ⟨⟨r, afterTest r rest, rp⟩, rfl, rfl, .macroRead _ (by simp) (execRd_cases e)⟩
    | reset => exact ⟨⟨r, rest, rp⟩, rfl, rfl, .reset rfl (Host.Outcome.next.inj e).symm⟩
    | wide z => cases e

/-! ### What the macro moves leave of the script -/

@[simp] theorem linesRd_length (a n : Nat) : (linesRd a n).length = n := by
  induction n generalizing a with
  | zero => rfl
  | succ n ih => simp [linesRd, ih]

/-- Line `k` of `linesRd a n` reads offset `a + k`. -/
theorem linesRd_getElem? {a n k : Nat} (h : k < n) :
    (linesRd a n)[k]? = some (.access (encodeRd (BitVec.ofNat 7 (a + k)))) := by
  induction n generalizing a k with
  | zero => omega
  | succ n ih =>
    cases k with
    | zero => rfl
    | succ k => rw [linesRd, List.getElem?_cons_succ, ih (by omega), Nat.add_assoc, Nat.add_comm 1 k]

theorem afterTest_of_ok {r : Regs} (rest : List Move) (h : statusErr (r.hostRead Config.statusOffset) = 0#3) :
    afterTest r rest = rest := if_pos h

theorem afterTest_of_error {r : Regs} (rest : List Move) (h : statusErr (r.hostRead Config.statusOffset) ≠ 0#3) :
    afterTest r rest = [] := if_neg h

end Sys2Proof.Machine
end

