-- ==== Sys2Proof/Laws/Inv.lean ====
section
/-! SUPPORT. The parts of the invariant: what it says of `STATUS`, and that the operations under the steps keep it. -/

namespace Sys2Proof.Safety

open Sys2Proof.Machine

/-- The values `STATUS` holds with `PH = IDLE` (R26). -/
abbrev restingStatus : List Byte := [0x00#8, 0x02#8, 0x06#8, 0x0A#8, 0x0E#8, 0x12#8]

/-- R26 and R27 together: 0x01 in flight, one of the others at rest. -/
theorem statusRule_iff (r : Regs) :
    (StatusRule r ∧ r.status ∈ [0x00#8, 0x01#8, 0x02#8, 0x06#8, 0x0A#8, 0x0E#8, 0x12#8]) ↔
    (r.status ∈ restingStatus ∧ r.ph = 0#3) ∨ (r.status = 0x01#8 ∧ r.ph ≠ 0#3) := by
  constructor
  · rintro ⟨⟨b, -, -, -⟩, h⟩
    simp only [List.mem_cons, List.not_mem_nil, or_false] at h
    rcases h with h | h | h | h | h | h | h <;> rw [h] at b <;> simp [statusBusy] at b <;> simp [h, b]
  · rintro (⟨h, p⟩ | ⟨h, p⟩)
    · simp only [restingStatus, List.mem_cons, List.not_mem_nil, or_false] at h
      rcases h with h | h | h | h | h | h <;> refine ⟨⟨?_, ?_, ?_, ?_⟩, ?_⟩ <;>
        simp [h, p, statusBusy, statusDone, statusErr, statusReserved]
    · refine ⟨⟨?_, ?_, ?_, ?_⟩, ?_⟩ <;> simp [h, p, statusBusy, statusDone, statusErr, statusReserved]

theorem Inv.status_of_idle {r : Regs} (I : Inv r) (h : r.ph = 0#3) : r.status ∈ restingStatus := by
  rcases (statusRule_iff r).mp ⟨I.status, I.statusValue⟩ with ⟨hs, -⟩ | ⟨-, hp⟩
  · exact hs
  · exact absurd h hp

theorem Inv.status_of_busy {r : Regs} (I : Inv r) (h : r.ph ≠ 0#3) : r.status = 0x01#8 := by
  rcases (statusRule_iff r).mp ⟨I.status, I.statusValue⟩ with ⟨-, hp⟩ | ⟨hs, -⟩
  · exact absurd hp h
  · exact hs

/-- The invariant from its parts, `STATUS` in one of the two forms of `statusRule_iff`. -/
theorem Inv.of_parts {r : Regs}
    (st : (r.status ∈ restingStatus ∧ r.ph = 0#3) ∨ (r.status = 0x01#8 ∧ r.ph ≠ 0#3)) (p : r.ph.toNat ≤ 4)
    (d : ∀ k (h : k < 43), (r.ds[k]).toNat ≤ 61) (c : CounterRule r)
    (m : r.ph = Config.phEncDiv → r.dcnt = 0#6 ∨ r.acc ≠ 0#257) : Inv r :=
  ⟨((statusRule_iff r).mpr st).1, ((statusRule_iff r).mpr st).2, p, d, c, m⟩

/-- At rest the invariant asks for the ranges of the counters and the digits only. -/
theorem Inv.of_idle {r : Regs} (h : r.ph = 0#3) (st : r.status ∈ restingStatus)
    (d : ∀ k (h : k < 43), (r.ds[k]).toNat ≤ 61) (a : r.dcnt.toNat ≤ 43) (b : r.idx.toNat ≤ 43) : Inv r :=
  .of_parts (.inl ⟨st, h⟩) (by rw [h]; decide) d
    ⟨a, b, by simp [h], by simp [h], by simp [h], by simp [h]⟩ (by simp [h])

/-- An error completion keeps the invariant (R228). -/
theorem Inv.raise {r : Regs} (I : Inv r) (k : ErrKind) : Inv (r.raise k) :=
  .of_idle rfl (by cases k <;> (show statusError _ ∈ _; decide)) I.digits I.counters.dcnt I.counters.idx

/-- A plain store at rest keeps the invariant (R63). -/
theorem Inv.poke {r : Regs} (I : Inv r) (h : r.ph = 0#3) (a : Offset) (v : Byte) : Inv (r.poke a v) := by
  have st := I.status_of_idle h
  rcases r.poke_cases a v with ⟨_, e⟩ | ⟨_, e⟩ | ⟨_, e⟩ | ⟨_, _, _, e⟩ | e <;> rw [e]
  all_goals first | exact I | exact .of_idle h st I.digits I.counters.dcnt I.counters.idx

/-- Acceptance of `ENC` keeps the invariant (R162, R163). -/
theorem Inv.acceptEnc {r : Regs} (I : Inv r) : Inv r.acceptEnc := by
  rcases r.acceptEnc_cases with ⟨_, e⟩ | ⟨hb, e⟩ <;> rw [e]
  · exact I.raise _
  · have lt := lt_of_lt_of_le (bytesToNat_lt r.b _ hb) (pow256_le hb)
    refine .of_parts (.inr ⟨rfl, by simp⟩) (by simp) I.digits
      ⟨by simp, by simp, fun _ => ⟨hb, ?_, ?_⟩, by simp, by simp, by simp⟩ (by simp)
    · rw [Regs.loadEnc_acc, ofNat257_of_lt lt]; exact lt
    · rw [Regs.loadEnc_acc, ofNat257_of_lt lt]; simp [dsValue]

/-- Acceptance of `DEC` keeps the invariant (R192, R194). -/
theorem Inv.acceptDec {r : Regs} (I : Inv r) : Inv r.acceptDec := by
  rcases r.acceptDec_cases with ⟨_, e⟩ | ⟨hb, e⟩ <;> rw [e]
  · exact I.raise _
  · by_cases h0 : r.clen = 0#8
    · exact .of_parts (.inr ⟨rfl, by simp [h0]⟩) (by simp [h0]) I.digits
        ⟨by simp, by simp, by simp [h0], by simp [h0], by simp [h0], by simp [h0]⟩ (by simp [h0])
    · have pos : r.clen.toNat ≠ 0 := fun e => h0 (BitVec.eq_of_toNat_eq (by simpa using e))
      exact .of_parts (.inr ⟨rfl, by simp [h0]⟩) (by simp [h0]) I.digits
        ⟨by simp, by simp, by simp [h0], by simp [h0], by simp; omega, by simp [h0]⟩ (by simp [h0])

/-- A counter below 43 counts on without wrapping (R146). -/
theorem count_succ {x : Count} (h : x.toNat ≤ 42) : (x + 1#6).toNat = x.toNat + 1 := by
  rw [BitVec.toNat_add]; simp; omega

end Sys2Proof.Safety
end

