-- ==== Sys2Proof/Laws/PerInstr.lean ====
section
/-! SUPPORT. The per-instruction family `RoundTrip`: an instruction is read back from its code. -/

/-- Decoding an instruction's code gives the instruction (30_encoding.md R91, R100, R102). -/
def Sys2Proof.Laws.RoundTrip.Statement (i : Sys2Proof.Instr) : Prop :=
  Sys2Proof.decode (Sys2Proof.encode i) = .ok i

theorem Sys2Proof.Laws.RoundTrip.enc : Sys2Proof.Laws.RoundTrip.Statement .enc := rfl

theorem Sys2Proof.Laws.RoundTrip.dec : Sys2Proof.Laws.RoundTrip.Statement .dec := rfl

theorem Sys2Proof.Laws.RoundTrip.encDiv : Sys2Proof.Laws.RoundTrip.Statement .encDiv := rfl

theorem Sys2Proof.Laws.RoundTrip.encRev : Sys2Proof.Laws.RoundTrip.Statement .encRev := rfl

theorem Sys2Proof.Laws.RoundTrip.decMac : Sys2Proof.Laws.RoundTrip.Statement .decMac := rfl

theorem Sys2Proof.Laws.RoundTrip.decChk : Sys2Proof.Laws.RoundTrip.Statement .decChk := rfl

theorem Sys2Proof.Laws.RoundTrip.wr (a : Sys2Proof.Offset) (v : Sys2Proof.Byte) :
    Sys2Proof.Laws.RoundTrip.Statement (.wr a v) :=
  congrArg Except.ok (Sys2Proof.decodeTx_encodeWr a v)

theorem Sys2Proof.Laws.RoundTrip.rd (a : Sys2Proof.Offset) :
    Sys2Proof.Laws.RoundTrip.Statement (.rd a) :=
  congrArg Except.ok (Sys2Proof.decodeTx_encodeRd a)
end

