-- ==== Sys2Proof/Tests/Slice0.lean ====
section
/-! SUPPORT. Tests of the model against the spec's own tables and vectors, the smoke tests of the checks, and a
witness for the hypotheses of each statement. Each test names where its expected result comes from. -/

namespace Sys2Proof.Tests

open Sys2Proof.Machine Sys2Proof.Safety

/-! ### Small states -/

/-- The next state of an outcome, where there is one. -/
def next? : Host.Outcome State Fault Refusal → Option State
  | .next s => some s
  | .fault _ => none
  | .refused _ => none

/-- An outcome that is a next state, shown by evaluation. -/
theorem exists_next {o : Host.Outcome State Fault Refusal} (h : (next? o).isSome = true) : ∃ t, o = .next t := by
  cases o with
  | next t => exact ⟨t, rfl⟩
  | fault _ => cases h
  | refused _ => cases h

/-- A state with these registers, this script and no replies. -/
def st (r : Regs) (script : List Move := []) : State := { regs := r, script := script, replies := [] }

/-- `B[0] = 0x64`, `BLEN = 1`, accepted by `ENC` (95_test_vectors.md P1). -/
def encoding100 : Regs :=
  { Regs.reset with
    b := Regs.reset.b.set 0 0x64#8, blen := 1#8, status := 0x01#8, ph := 1#3, acc := 100#257 }

/-- The digits 38 and 1 found, `ENC_REV` next (42_encode.md R165, R168). -/
def reversing100 : Regs :=
  { Regs.reset with
    b := Regs.reset.b.set 0 0x64#8, blen := 1#8, status := 0x01#8, ph := 2#3, dcnt := 2#6
    ds := (Regs.reset.ds.set 0 38#6).set 1 1#6 }

/-- "hoj", two characters folded (43_decode.md R195). -/
def folding : Regs :=
  { Regs.reset with
    c := ((Regs.reset.c.set 0 0x68#8).set 1 0x6F#8).set 2 0x6A#8, clen := 3#8, status := 0x01#8, ph := 3#3
    acc := 2086#257, idx := 2#6 }

/-- "hoj" folded, `DEC_CHK` next (43_decode.md R198). -/
def checking : Regs := { folding with ph := 4#3, acc := 0x01F957#257, idx := 3#6 }

/-! ### Well-formedness: the check refuses each ill-formed term -/

theorem test_wf_refuses_enc_spelled_as_wr : Instr.wf (.wr 0x22#7 0x01#8) = false := by decide

theorem test_wf_refuses_dec_spelled_as_wr : Instr.wf (.wr 0x22#7 0x02#8) = false := by decide

theorem test_wf_accepts_reserved_command : Instr.wf (.wr 0x22#7 0x03#8) = true := by decide

theorem test_pseudo_refuses_33_bytes : Pseudo.wf (.setB (List.replicate 33 0#8)) = false := by decide

theorem test_pseudo_refuses_44_chars : Pseudo.wf (.setC (List.replicate 44 0x41#8)) = false := by decide

/-! ### Decoding: each constructor from a word written out from 30_encoding.md -/

/-- R91: `OP` = 0000_0001. -/
theorem test_decode_enc : decode (.cmd8 0b00000001#8) = .ok .enc := by decide

/-- R91: `OP` = 0000_0010. -/
theorem test_decode_dec : decode (.cmd8 0b00000010#8) = .ok .dec := by decide

/-- R92: the neighbours are reserved. -/
theorem test_decode_reserved :
    decode (.cmd8 0b00000000#8) = .error (.reservedCommand 0#8) ∧
    decode (.cmd8 0b10000001#8) = .error (.reservedCommand 0x81#8) := by decide

/-- R100: `PH` 1 to 4. -/
theorem test_decode_phases :
    decode (.ph3 0b001#3) = .ok .encDiv ∧ decode (.ph3 0b010#3) = .ok .encRev ∧
    decode (.ph3 0b011#3) = .ok .decMac ∧ decode (.ph3 0b100#3) = .ok .decChk := by decide

/-- R100: 0 selects no step, 5 to 7 are unreachable. -/
theorem test_decode_no_phase :
    decode (.ph3 0b000#3) = .error .idlePhase ∧ decode (.ph3 0b101#3) = .error (.unusedPhase 5#3) := by decide

/-- R102: `W` = 1, `A` = 110_1010, `V` = 0100_0010 is `WR 0x6A, 0x42` (95 P4: 0xEA42). -/
theorem test_decode_wr : decode (.tx16 0b1_1101010_01000010#16) = .ok (.wr 0x6A#7 0x42#8) := by decide

/-- R102: `W` = 0, `A` = 010_0011 is `RD 0x23`, whatever `V` is. -/
theorem test_decode_rd :
    decode (.tx16 0b0_0100011_00000000#16) = .ok (.rd 0x23#7) ∧
    decode (.tx16 0b0_0100011_10101010#16) = .ok (.rd 0x23#7) := by decide

/-- R102: "`ENC` is 0xA201; `DEC` is 0xA202". -/
theorem test_host_commands :
    hostInstr 0xA201#16 = .enc ∧ hostInstr 0xA202#16 = .dec ∧ hostInstr 0xA203#16 = .wr 0x22#7 0x03#8 := by decide

/-- The rows of opcode_table.json that are told apart by their width and bits (log entry 11). -/
theorem test_table_words :
    decodeTableWord 8 1 = some .enc ∧ decodeTableWord 8 2 = some .dec ∧ decodeTableWord 3 1 = some .encDiv ∧
    decodeTableWord 3 2 = some .encRev ∧ decodeTableWord 8 3 = some .decMac ∧ decodeTableWord 8 4 = some .decChk ∧
    decodeTableWord 16 0x8000 = some (.wr 0 0) ∧ decodeTableWord 16 0 = some (.rd 0) := by decide

/-- A placed word is the next step's instruction, right after reset. -/
theorem test_placed_words_run :
    next? (step (State.reset.withFetchWord 8 1)) = next? (exec .enc State.reset) ∧
    next? (step (State.reset.withFetchWord 16 0x8055)) = next? (exec (.wr 0 0x55) State.reset) ∧
    next? (step (State.reset.withFetchWord 16 0x2300)) = next? (exec (.rd 0x23) State.reset) ∧
    next? (step (State.reset.withFetchWord 3 1)) =
      next? (exec .encDiv (st { Regs.reset with ph := 1#3 })) := by decide

/-! ### Each instruction's effect, on the spec's own examples -/

/-- R163's example: `B[0..2] = 0x01 0xF9 0x57`, `BLEN = 3` loads 129367. -/
theorem test_enc_loads :
    (next? (exec .enc (st { Regs.reset with
      b := ((Regs.reset.b.set 0 0x01#8).set 1 0xF9#8).set 2 0x57#8, blen := 3#8 }))).map
      (fun t => (t.regs.acc, t.regs.status, t.regs.ph)) = some (129367#257, 0x01#8, 1#3) := by decide

/-- 95_test_vectors.md E19: `BLEN = 33` gives 0x06. -/
theorem test_enc_too_long :
    (next? (exec .enc (st { Regs.reset with blen := 33#8 }))).map (fun t => (t.regs.status, t.regs.ph)) =
      some (0x06#8, 0#3) := by decide

/-- R194's example: `CLEN = 4` starts `DEC_MAC`; R193: `CLEN = 0` goes to `DEC_CHK`. -/
theorem test_dec_starts :
    (next? (exec .dec (st { Regs.reset with clen := 4#8 }))).map (fun t => (t.regs.status, t.regs.ph)) =
      some (0x01#8, 3#3) ∧
    (next? (exec .dec (st Regs.reset))).map (fun t => t.regs.ph) = some 4#3 := by decide

/-- 95_test_vectors.md X5: `CLEN = 44` gives 0x06. -/
theorem test_dec_too_long :
    (next? (exec .dec (st { Regs.reset with clen := 44#8 }))).map (fun t => (t.regs.status, t.regs.ph)) =
      some (0x06#8, 0#3) := by decide

/-- R165's example: `ACC = 100` gives `DS[0] = 38`, `DCNT = 1`, `ACC = 1`, and the loop goes on. -/
theorem test_encDiv_continues :
    (next? (exec .encDiv (st encoding100))).map
      (fun t => (t.regs.ds[0], t.regs.dcnt, t.regs.acc, t.regs.ph)) = some (38#6, 1#6, 1#257, 1#3) := by decide

/-- R166: the first step on `ACC = 0` stores one zero digit and leaves the loop. -/
theorem test_encDiv_zero :
    (next? (exec .encDiv (st { encoding100 with acc := 0#257, idx := 5#6 }))).map
      (fun t => (t.regs.dcnt, t.regs.idx, t.regs.ph)) = some (1#6, 0#6, 2#3) := by decide

/-- R168's example: `C[0] = ALPHA(1) = 0x42`. -/
theorem test_encRev_first :
    (next? (exec .encRev (st reversing100))).map
      (fun t => (t.regs.c[0], t.regs.idx, t.regs.clen, t.regs.ph)) = some (0x42#8, 1#6, 0#8, 2#3) := by decide

/-- R168's example: `C[1] = ALPHA(38) = 0x6D`, `CLEN = 2`, `STATUS = 0x02`. -/
theorem test_encRev_last :
    (next? (exec .encRev (st { reversing100 with idx := 1#6 }))).map
      (fun t => (t.regs.c[1], t.regs.clen, t.regs.status, t.regs.ph)) = some (0x6D#8, 2#8, 0x02#8, 0#3) := by decide

/-- R201: 62*2086 + 35 = 129367, and the last character leads to `DEC_CHK`. -/
theorem test_decMac_folds :
    (next? (exec .decMac (st folding))).map (fun t => (t.regs.acc, t.regs.idx, t.regs.ph)) =
      some (129367#257, 3#6, 4#3) := by decide

/-- R195, X9: `!` is no character; `STATUS = 0x0A` and `ACC` stays. -/
theorem test_decMac_bad_character :
    (next? (exec .decMac (st { folding with c := folding.c.set 2 0x21#8 }))).map
      (fun t => (t.regs.status, t.regs.acc, t.regs.ph)) = some (0x0A#8, 2086#257, 0#3) := by decide

/-- R198's example: the bytes 01 F9 57, right-aligned. -/
theorem test_decChk_commits :
    (next? (exec .decChk (st checking))).map
      (fun t => (t.regs.b[28], t.regs.b[29], t.regs.b[30], t.regs.b[31], t.regs.blen, t.regs.status)) =
      some (0x00#8, 0x01#8, 0xF9#8, 0x57#8, 32#8, 0x02#8) := by decide

/-- 95_test_vectors.md X1: `ACC = 2^256` overflows and leaves `BLEN`. -/
theorem test_decChk_overflows :
    (next? (exec .decChk (st { checking with acc := BitVec.ofNat 257 (2 ^ 256), blen := 7#8 }))).map
      (fun t => (t.regs.status, t.regs.blen, t.regs.ph)) = some (0x0E#8, 7#8, 0#3) := by decide

/-- 95_test_vectors.md H10: the last entries of `C` and `B`. -/
theorem test_wr_last_entries :
    (next? (exec (.wr 0x6A#7 0x7A#8) State.reset)).map (fun t => t.regs.c[42]) = some 0x7A#8 ∧
    (next? (exec (.wr 0x1F#7 0x99#8) State.reset)).map (fun t => t.regs.b[31]) = some 0x99#8 := by decide

/-- 95_test_vectors.md H3, H7, H8: a reserved command, a write of `STATUS`, a reserved offset. -/
theorem test_wr_specials :
    (next? (exec (.wr 0x22#7 0x00#8) State.reset)).map (fun t => t.regs.status) = some 0x12#8 ∧
    next? (exec (.wr 0x23#7 0xFF#8) State.reset) = some State.reset ∧
    next? (exec (.wr 0x6B#7 0x01#8) State.reset) = some State.reset := by decide

/-- 95_test_vectors.md P5: in flight only `STATUS` is read, and writes are dropped. -/
theorem test_rd_in_flight :
    (next? (exec (.rd 0x00#7) (st encoding100))).map (fun t => t.replies) = some [0x00#8] ∧
    (next? (exec (.rd 0x23#7) (st encoding100))).map (fun t => t.replies) = some [0x01#8] ∧
    next? (exec (.wr 0x00#7 0xAA#8) (st encoding100)) = some (st encoding100) := by decide

/-- 95_test_vectors.md H9: a length register reads back all 8 bits. -/
theorem test_rd_length :
    (next? (exec (.rd 0x20#7) (st { Regs.reset with blen := 0xFF#8 }))).map (fun t => t.replies) =
      some [0xFF#8] := by decide

/-! ### Pure functions, on the vectors of 95_test_vectors.md -/

/-- Section 2.1. -/
theorem test_alpha_ends :
    [0#6, 25#6, 26#6, 51#6, 52#6, 61#6].map alpha = [0x41#8, 0x5A#8, 0x61#8, 0x7A#8, 0x30#8, 0x39#8] := by decide

/-- Section 2.1: the six codes just outside the three ranges. -/
theorem test_digit_outside :
    [0x40#8, 0x5B#8, 0x60#8, 0x7B#8, 0x2F#8, 0x3A#8].map digitOf = List.replicate 6 none := by decide

/-- Section 2.2. -/
theorem test_divMod :
    divMod62 3843#256 = (61#256, 61#6) ∧ divMod62 3844#256 = (62#256, 0#6) ∧
    divMod62 (BitVec.ofNat 256 (2 ^ 256 - 1)) =
      (0x0421084210842108421084210842108421084210842108421084210842108421#256, 1#6) := by decide

/-- Section 2.2: `MulAdd62(62^42 - 1, 61) = 62^43 - 1`. -/
theorem test_mulAdd_largest :
    mulAdd62 (BitVec.ofNat 257 (62 ^ 42 - 1)) 61#6 = BitVec.ofNat 257 (62 ^ 43 - 1) := by decide

/-- E10 and E5: "hoj" and "BA". -/
theorem test_encodeFn :
    encodeFn 0x01F957 = [0x68#8, 0x6F#8, 0x6A#8] ∧ encodeFn 62 = [0x42#8, 0x41#8] ∧ encodeFn 0 = [0x41#8] := by decide

/-! ### Scripts -/

/-- R101: the expansion of `SETB`, as words of R102. -/
theorem test_setB :
    (Pseudo.setB [0x01#8, 0xF9#8, 0x57#8]).expand =
      [.access 0x8001#16, .access 0x81F9#16, .access 0x8257#16, .access 0xA003#16] := by decide

/-- R101, P2: the expansion of `SETC` and `DEC`. -/
theorem test_setC :
    expandAll [.setC [0x41#8, 0x68#8], .dec] =
      [.access 0xC041#16, .access 0xC168#16, .access 0xA102#16, .access 0xA202#16] := by decide

/-- R101: `GETC` reads `CLEN` and then that many characters; nothing beyond offset 0x7F (log entry 24). -/
theorem test_getC :
    (next? (step (st { Regs.reset with clen := 2#8 } [.getC, .reset]))).map (fun t => (t.script, t.replies)) =
      some ([.access 0x4000#16, .access 0x4100#16, .reset], [2#8]) ∧
    (next? (step (st { Regs.reset with clen := 255#8 } [.getC]))).map (fun t => t.script.getLast?) =
      some (some (.access 0x7F00#16)) := by decide

/-- R270 step 5: the host goes on after success and stops after an error. -/
theorem test_errTest :
    (next? (step (st { Regs.reset with status := 0x02#8 } [.test, .getC]))).map (fun t => t.script) = some [.getC] ∧
    (next? (step (st { Regs.reset with status := 0x0E#8 } [.test, .getC]))).map (fun t => (t.script, t.replies)) =
      some ([], [0x0E#8]) := by decide

/-! ### Witnesses: for each statement with hypotheses, operands that meet them -/

theorem witness_ResetInput : (st encoding100 [.reset, .core]).script = .reset :: [.core] := rfl

theorem witness_StatusZeroOnlyAfterReset :
    (Regs.reset.ph = Config.phIdle ∧ ∃ t, exec (.wr Config.cmdOffset 0x00#8) State.reset = .next t) ∧
    ((st encoding100).regs.status ≠ 0x00#8 ∧ (st encoding100).script.head? ≠ some .reset ∧
      ∃ t, step (st encoding100) = .next t) :=
  ⟨⟨rfl, _, rfl⟩, by decide, by decide, _, rfl⟩

theorem witness_StepRunsHostLine :
    (st encoding100 [.access 0x2300#16]).script = .access 0x2300#16 :: [] ∧
    (st { Regs.reset with clen := 64#8 } [.getC, .core]).script = .getC :: [.core] ∧
    (st { Regs.reset with status := 0x06#8 } [.test, .core]).script = .test :: [.core] := ⟨rfl, rfl, rfl⟩

theorem witness_StepRunsCoreStep :
    decode (.ph3 (st checking [.core]).regs.ph) = .ok .decChk ∧ (st checking [.core]).script = .core :: [] ∧
    decode (.ph3 (st encoding100).regs.ph) = .ok .encDiv ∧ (st encoding100).script = [] ∧
    State.reset.regs.ph = Config.phIdle ∧ State.reset.script = [] ∧
    (st Regs.reset [.core]).script = .core :: [] := by decide

theorem witness_UnusedPhaseIsStuck :
    Reachable State.reset ∧
    (5 ≤ (st { Regs.reset with ph := 5#3 } [.core]).regs.ph.toNat ∧
      (st { Regs.reset with ph := 5#3 } [.core]).script.head? ≠ some .reset ∧
      ∃ t, step (st { Regs.reset with ph := 5#3 } [.core]) = .next t) ∧
    (5 ≤ (st { Regs.reset with ph := 7#3 }).regs.ph.toNat ∧
      ∀ z, (st { Regs.reset with ph := 7#3 }).script.head? ≠ some (.wide z)) :=
  ⟨⟨[], 0, rfl⟩, ⟨by decide, by decide, _, rfl⟩, by decide, fun z => by simp [st]⟩

theorem witness_PollReadsStatus : (st encoding100 [.poll, .core]).script = .poll :: [.core] := rfl

theorem witness_WideAccessRefused : (st Regs.reset [.wide .bits16]).script = .wide .bits16 :: [] := rfl

theorem witness_EveryAccessCompletes : (st encoding100 [.access 0xFFFF#16]).script = .access 0xFFFF#16 :: [] := rfl

theorem witness_DecodeExamples : (0x00#8 : Byte) ≠ 0x01#8 ∧ (0x00#8 : Byte) ≠ 0x02#8 := by decide

theorem witness_DecodeEncodeAgree :
    decode (.tx16 0x23FF#16) = .ok (.rd 0x23#7) ∧
    (Instr.wf .enc = true ∧ scriptWord .enc = some 0xA201#16) ∧
    (Instr.wf (.wr 0x22#7 0x00#8) = true ∧ scriptWord (.wr 0x22#7 0x00#8) = some 0xA200#16) := by decide

theorem witness_AlphabetOrder : (61#6 : Digit).toNat ≤ 61 := by decide

theorem witness_DigitInvertsAlpha : digitOf 0x39#8 = some 61#6 ∧ (61#6 : Digit).toNat ≤ 61 := by decide

theorem witness_DivModExact : (BitVec.ofNat 256 62).toNat = 62 * 1 + 0 ∧ (61#256 : BitVec 256).toNat ≤ 61 := by decide

theorem witness_MulAddNeverWraps :
    (42 : Nat) ≤ 42 ∧ (BitVec.ofNat 257 (62 ^ 42 - 1)).toNat < 62 ^ 42 ∧ (61#6 : Digit).toNat ≤ 61 := by decide

theorem witness_BytesBigEndian :
    (32 : Nat) ≤ 32 ∧ ∀ i (h : i < 32), i < 1 → encoding100.b[i] = (encoding100.b.set 1 0xFF#8)[i] :=
  ⟨le_refl _, fun i h hi => by simp [Vector.getElem_set]; omega⟩

theorem witness_BytesRendering :
    (2 : Nat) ^ 256 - 1 < 2 ^ 256 ∧ (BitVec.ofNat 257 (2 ^ 256 - 1)).getLsbD 256 = false := by decide

theorem witness_DigitCountLaw : (2 : Nat) ^ 256 - 1 < 2 ^ 256 ∧ 0 < (2 : Nat) ^ 256 - 1 := by decide

theorem witness_EncodeFnDigits : (62 : Nat) < 2 ^ 256 ∧ 1 < digitCount 62 := by decide

theorem witness_DecodeFnValue :
    ((∃ ch ∈ [0x42#8, 0x21#8], digitOf ch = none) ∧ [0x42#8, 0x21#8].length ≤ 43) ∧
    ((List.replicate 43 0x39#8).length ≤ 43 ∧ (∀ ch ∈ List.replicate 43 0x39#8, digitOf ch ≠ none) ∧
      2 ^ 256 ≤ ofPlaces 62 (List.replicate 43 61)) ∧
    ((∀ ch ∈ [0x42#8], digitOf ch ≠ none) ∧ ofPlaces 62 [1] < 2 ^ 256) := by decide

theorem witness_EncodeFnCanonical :
    (2 : Nat) ^ 256 - 1 < 2 ^ 256 ∧ (encodeFn 0).head? = some 0x41#8 ∧ encodeFn 5 = encodeFn 5 := by decide

theorem witness_DecodeFnOfEncodeFn :
    (2 : Nat) ^ 256 - 1 < 2 ^ 256 ∧ (List.replicate 42 0x39#8).length ≤ 42 := by decide

theorem witness_ReadWhenIdle :
    Regs.reset.ph = Config.phIdle ∧ (0x1F#7 : Offset).toNat < 32 ∧ (0x40#7 : Offset).toNat = 0x40 + 0 ∧
    (0x6A#7 : Offset).toNat = 0x40 + 42 ∧ 0x24 ≤ (0x24#7 : Offset).toNat ∧ (0x3F#7 : Offset).toNat ≤ 0x3F ∧
    0x6B ≤ (0x6B#7 : Offset).toNat ∧ 0x6B ≤ (0x7F#7 : Offset).toNat := by decide

theorem witness_WriteWhenIdle :
    Regs.reset.ph = Config.phIdle ∧ (0x00#7 : Offset).toNat < 32 ∧ (0x1F#7 : Offset).toNat < 32 ∧
    (0x6A#7 : Offset).toNat = 0x40 + 42 ∧ 0x24 ≤ (0x3F#7 : Offset).toNat ∧ 0x6B ≤ (0x6B#7 : Offset).toNat := by decide

theorem witness_AccessInFlight :
    encoding100.ph ≠ Config.phIdle ∧
    ∃ s, Reachable s ∧ s.regs.ph ≠ Config.phIdle :=
  ⟨by decide, st Regs.reset.loadEnc, ⟨[.access 0xA201#16], 1, rfl⟩, by decide⟩

theorem witness_ReservedOffsets :
    (0x24 ≤ (0x24#7 : Offset).toNat ∧ (0x24#7 : Offset).toNat ≤ 0x3F) ∧
    (0x6B ≤ (0x7F#7 : Offset).toNat ∧ (0x7F#7 : Offset).toNat ≤ 0x7F) := by decide

theorem witness_FrameHostWrite :
    (0x6A#7 : Offset) ≠ Config.cmdOffset ∧ Regs.reset.ph = Config.phIdle ∧
    ∃ t, exec (.wr 0x6A#7 0x42#8) State.reset = .next t :=
  ⟨by decide, rfl, _, rfl⟩

theorem witness_FrameHostRead : ∃ t, exec (.rd 0x23#7) (st encoding100) = .next t := ⟨_, rfl⟩

theorem witness_StatusIsKept :
    (st Regs.reset [.access 0x8055#16]).regs.ph = Config.phIdle ∧
    (st Regs.reset [.access 0x8055#16]).script.head? ≠ some .reset ∧
    (∀ w, (st Regs.reset [.access 0x8055#16]).script.head? = some (.access w) →
      ¬(txIsWrite w = true ∧ txOffset w = Config.cmdOffset)) ∧
    ∃ t, step (st Regs.reset [.access 0x8055#16]) = .next t :=
  ⟨rfl, by decide, fun w h => by cases h; decide, _, rfl⟩

theorem witness_AcceptCommand :
    Regs.reset.ph = Config.phIdle ∧ (0xFF#8 : Byte) ≠ 0x01#8 ∧ (0xFF#8 : Byte) ≠ 0x02#8 ∧
    encoding100.ph ≠ Config.phIdle := by decide

theorem witness_EncLengthCheck :
    Regs.reset.ph = Config.phIdle ∧ 33 ≤ ({ Regs.reset with blen := 33#8 } : Regs).blen.toNat ∧
    ({ Regs.reset with blen := 32#8 } : Regs).blen.toNat ≤ 32 ∧
    ∃ t, exec .enc (st { Regs.reset with blen := 32#8 }) = .next t :=
  ⟨rfl, by decide, by decide, _, rfl⟩

theorem witness_EncLoad :
    ({ Regs.reset with blen := 32#8 } : Regs).ph = Config.phIdle ∧
    ({ Regs.reset with blen := 32#8 } : Regs).blen.toNat ≤ 32 := by decide

theorem witness_DecLengthCheck :
    Regs.reset.ph = Config.phIdle ∧ 44 ≤ ({ Regs.reset with clen := 44#8 } : Regs).clen.toNat ∧
    ({ Regs.reset with clen := 43#8 } : Regs).clen.toNat ≤ 43 ∧
    ∃ t, exec .dec (st { Regs.reset with clen := 43#8 }) = .next t :=
  ⟨rfl, by decide, by decide, _, rfl⟩

theorem witness_DecStart :
    ({ Regs.reset with clen := 43#8 } : Regs).ph = Config.phIdle ∧
    ({ Regs.reset with clen := 43#8 } : Regs).clen.toNat ≤ 43 ∧ Regs.reset.clen.toNat ≤ 43 := by decide

theorem witness_FrameAcceptance :
    (∃ t, exec .enc State.reset = .next t) ∧ (∃ t, exec .dec State.reset = .next t ∧ t.regs.ph ≠ Config.phIdle) ∧
    ∃ t, exec .enc (st { Regs.reset with blen := 33#8 }) = .next t ∧ t.regs.ph = Config.phIdle :=
  ⟨⟨_, rfl⟩, ⟨_, rfl, by decide⟩, _, rfl, by decide⟩

theorem witness_EncDivStep :
    ({ encoding100 with dcnt := 42#6 } : Regs).dcnt.toNat < 43 ∧ 100 = encoding100.acc.toNat % 2 ^ 256 := by decide

theorem witness_EncRevStep :
    ({ reversing100 with dcnt := 43#6, idx := 42#6 } : Regs).dcnt.toNat ≤ 43 ∧
    ({ reversing100 with dcnt := 43#6, idx := 42#6 } : Regs).idx.toNat <
      ({ reversing100 with dcnt := 43#6, idx := 42#6 } : Regs).dcnt.toNat := by decide

theorem witness_DecMacStep :
    folding.idx.toNat < 43 ∧ digitOf folding.c[2] = some 35#6 ∧ folding.acc.toNat < 62 ^ 42 ∧
    digitOf (folding.c.set 2 0x21#8)[2] = none := by decide

theorem witness_DecChkStep :
    checking.acc.getLsbD 256 = false ∧ (BitVec.ofNat 257 (2 ^ 256)).getLsbD 256 = true := by decide

theorem witness_FrameEncodeSteps :
    (∃ t, exec .encDiv (st encoding100) = .next t) ∧
    (∃ t, exec .encRev (st reversing100) = .next t ∧ reversing100.idx.toNat + 1 ≠ reversing100.dcnt.toNat) :=
  ⟨⟨_, rfl⟩, _, rfl, by decide⟩

theorem witness_FrameDecodeSteps :
    (∃ t, exec .decMac (st folding) = .next t ∧ t.regs.ph ≠ Config.phIdle) ∧
    (∃ t, exec .decMac (st { folding with c := folding.c.set 2 0x21#8 }) = .next t ∧
      t.regs.status ≠ folding.status) ∧
    (∃ t, exec .decChk (st checking) = .next t) ∧
    (∃ t, exec .decChk (st { checking with acc := BitVec.ofNat 257 (2 ^ 256) }) = .next t) :=
  ⟨⟨_, rfl, by decide⟩, ⟨_, rfl, by decide⟩, exists_next (by decide), exists_next (by decide)⟩

theorem witness_IndexStops :
    43 ≤ ({ encoding100 with dcnt := 43#6 } : Regs).dcnt.toNat ∧
    ({ reversing100 with idx := 2#6 } : Regs).dcnt.toNat ≤ ({ reversing100 with idx := 2#6 } : Regs).idx.toNat ∧
    43 ≤ ({ folding with idx := 43#6 } : Regs).idx.toNat := by decide

theorem counterRule_encoding100 : CounterRule encoding100 where
  dcnt := by decide
  idx := by decide
  encDiv := fun _ => by decide
  encRev := fun h => absurd h (by decide)
  decMac := fun h => absurd h (by decide)
  decChk := fun h => absurd h (by decide)

/-- The invariant holds in the middle of an encode: the state of 95_test_vectors.md P1 after acceptance. -/
theorem inv_encoding100 : Inv encoding100 where
  status := ⟨by decide, by decide, by decide, by decide⟩
  statusValue := by decide
  phase := by decide
  digits := fun k h => by simp [encoding100, Regs.reset]
  counters := counterRule_encoding100
  moreToDivide := fun _ => .inl rfl

theorem witness_StepKeepsInv : Inv (st encoding100).regs ∧ ∃ t, step (st encoding100) = .next t :=
  ⟨inv_encoding100, _, rfl⟩

theorem witness_InvNeverStops :
    Inv (st encoding100).regs ∧ ∀ z, (st encoding100).script.head? ≠ some (.wide z) :=
  ⟨inv_encoding100, fun z => by simp [st]⟩

theorem witness_Reachable : Reachable (st Regs.reset.loadEnc) := ⟨[.access 0xA201#16], 1, rfl⟩

theorem witness_StatusRuleReachable : Reachable (st Regs.reset.loadEnc) := witness_Reachable

theorem witness_CounterRuleReachable :
    Reachable (st Regs.reset.loadEnc) ∧ Regs.reset.loadEnc.ph = 1#3 ∧
    Reachable (st Regs.reset.startDec) ∧ Regs.reset.startDec.ph = 4#3 :=
  ⟨witness_Reachable, by decide, ⟨[.access 0xA202#16], 1, rfl⟩, by decide⟩

/-- The other two phases of R36 are reached: `ENC_REV` after one division of 0, `DEC_MAC` with `CLEN = 1`. -/
theorem witness_CounterRuleReachable_other_phases :
    (∃ t, Host.Core.run Sys2Proof.core 2 (st Regs.reset [.access 0xA201#16]) = .next t ∧ t.regs.ph = 2#3) ∧
    (∃ t, Host.Core.run Sys2Proof.core 2 (st Regs.reset [.access 0xA101#16, .access 0xA202#16]) = .next t ∧
      t.regs.ph = 3#3) :=
  ⟨⟨_, rfl, by decide⟩, _, rfl, by decide⟩

theorem witness_PhaseGraph :
    Inv (st encoding100).regs ∧ (st encoding100).script.head? ≠ some .reset ∧ ∃ t, step (st encoding100) = .next t :=
  ⟨inv_encoding100, by decide, _, rfl⟩

theorem witness_OperandsConstantInFlight :
    ((st reversing100).script.head? ≠ some .reset ∧ (∃ t, step (st reversing100) = .next t) ∧ reversing100.ph = 2#3) ∧
    ((st folding).script.head? ≠ some .reset ∧ (∃ t, step (st folding) = .next t) ∧ folding.ph = 3#3) :=
  ⟨⟨by decide, ⟨_, rfl⟩, rfl⟩, by decide, ⟨_, rfl⟩, rfl⟩

theorem witness_CoreTerminates : Inv (st encoding100).regs ∧ (st encoding100).script = [] :=
  ⟨inv_encoding100, rfl⟩

/-- `B[0] = 0x64`, `BLEN = 1`, at rest. -/
def operand100 : Regs := { encoding100 with status := 0x00#8, ph := 0#3, acc := 0#257 }

theorem witness_EncodeResult :
    operand100.ph = Config.phIdle ∧ (st operand100).script = [] ∧ operand100.blen.toNat ≤ 32 ∧
    100 = bytesToNat operand100.b operand100.blen.toNat := by decide

/-- "hoj" at rest, and "ho!" at rest. -/
def text (last : Byte) : Regs :=
  { folding with c := folding.c.set 2 last, status := 0x00#8, ph := 0#3, acc := 0#257, idx := 0#6 }

theorem witness_DecodeResult :
    (text 0x6A#8).ph = Config.phIdle ∧ (st (text 0x6A#8)).script = [] ∧ (text 0x6A#8).clen.toNat ≤ 43 ∧
    [0x68#8, 0x6F#8, 0x6A#8] = (text 0x6A#8).c.toList.take (text 0x6A#8).clen.toNat ∧
    firstBad [0x68#8, 0x6F#8, 0x6A#8] = none ∧ firstBad [0x68#8, 0x6F#8, 0x21#8] = some 2 := by decide

theorem witness_InterleavedOperation :
    (operand100.ph = Config.phIdle ∧
      [Move.access 0x2300#16, .core, .access 0x8001#16, .core, .core, .core].getLast? = some .core ∧
      [Move.access 0x2300#16, .core, .access 0x8001#16, .core, .core, .core].count .core = operand100.encSteps) ∧
    ([Move.core, .core, .core, .core].count .core = (text 0x6A#8).decSteps) ∧
    ([Move.core, .core, .core].count .core = (text 0x21#8).decSteps) ∧
    (([] : List Move).count .core = ({ operand100 with blen := 33#8 } : Regs).encSteps) := by decide

theorem witness_RoundTrip :
    operand100.ph = Config.phIdle ∧ (st operand100).script = [] ∧ operand100.blen.toNat ≤ 32 ∧
    100 = bytesToNat operand100.b operand100.blen.toNat ∧ ({ operand100 with blen := 32#8 } : Regs).blen = 32#8 := by
  decide

theorem witness_HiddenStateInvisible :
    operand100.ph = Config.phIdle ∧
    operand100.view = ({ operand100 with acc := 7#257, dcnt := 5#6, idx := 9#6 } : Regs).view ∧
    operand100 ≠ { operand100 with acc := 7#257, dcnt := 5#6, idx := 9#6 } ∧
    ∃ t, Host.Core.run Sys2Proof.core 1 (st operand100 [.access 0xA201#16]) = .next t :=
  ⟨rfl, rfl, by decide, _, rfl⟩

theorem witness_EncodeBytesScript :
    [0x64#8].length ≤ 32 ∧ (st operand100 (encodeBytes [0x64#8])).script = encodeBytes [0x64#8] := ⟨by decide, rfl⟩

theorem witness_DecodeBytesScript :
    [0x42#8, 0x6D#8].length ≤ 43 ∧ decodeFn [0x42#8, 0x6D#8] = .ok 100 ∧
    (st operand100 (decodeBytes [0x42#8, 0x6D#8])).script = decodeBytes [0x42#8, 0x6D#8] := ⟨by decide, by decide, rfl⟩

theorem witness_HostProtocol :
    operand100.ph = Config.phIdle ∧ (List.replicate 32 0xFF#8).length ≤ 32 ∧ 32 < (List.replicate 33 0#8).length ∧
    (decodeFn [0x42#8, 0x6D#8] = .ok 100 ∧ [0x42#8, 0x6D#8].length ≤ 43) ∧
    (decodeFn [0x21#8] = .error .invalidCharacter ∧ [0x21#8].length ≤ 43) ∧
    (decodeFn (List.replicate 43 0x39#8) = .error .overflow ∧ (List.replicate 43 0x39#8).length ≤ 43) ∧
    43 < (List.replicate 44 0x41#8).length ∧
    (st operand100 (encodeProtocol [0x64#8])).script = encodeProtocol [0x64#8] ∧
    (st operand100 (decodeProtocol [0x21#8])).script = decodeProtocol [0x21#8] := by decide

end Sys2Proof.Tests
end

section
/-! SUPPORT. Runs of the machine, taken apart step by step, and what a line of the host's script can do to the
registers. -/

namespace Sys2Proof.Machine

/-! ### Runs -/

/-- A run of `n + 1` steps that answers is a step that answers and a run of `n` from there, in every machine of the
host's interface. -/
theorem core_run_succ_eq_next (M : Host.Core) {n : Nat} {s t : M.State} :
    M.run (n + 1) s = .next t ↔ ∃ u, M.step s = .next u ∧ M.run n u = .next t := by
  rw [Host.Core.run]
  cases M.step s with
  | next u => simp
  | fault r => simp
  | refused r => simp

theorem run_succ_eq_next {n : Nat} {s t : State} :
    Host.Core.run core (n + 1) s = .next t ↔ ∃ u, step s = .next u ∧ Host.Core.run core n u = .next t :=
  core_run_succ_eq_next core

/-- What every step keeps, every run keeps. -/
theorem run_keeps {P : State → Prop} (keep : ∀ s t, P s → step s = .next t → P t) :
    ∀ {n : Nat} {s t : State}, P s → Host.Core.run core n s = .next t → P t
  | 0, s, t, hs, e => by
    cases e
    exact hs
  | n + 1, s, t, hs, e => by
    obtain ⟨u, e₁, e₂⟩ := run_succ_eq_next.mp e
    exact run_keeps keep (keep s u hs e₁) e₂

/-! ### Host lines -/

/-- Every host line answers a next state (R280). -/
theorem exec_hostInstr_next (w : TxWord) (s : State) : ∃ t, exec (hostInstr w) s = .next t := by
  rcases hostInstr_cases w with ⟨-, -, -, e⟩ | ⟨-, -, -, e⟩ | ⟨-, -, e⟩ | ⟨-, e⟩ <;> rw [e]
  · exact ⟨_, rfl⟩
  · exact ⟨_, rfl⟩
  · exact ⟨_, rfl⟩
  · exact ⟨_, rfl⟩

/-- Everything a host line can do to the registers: nothing, or, with `PH = IDLE`, a command's acceptance or a plain
store (R63, R64, R121). -/
theorem exec_hostInstr_cases {w : TxWord} {s t : State} (e : exec (hostInstr w) s = .next t) :
    t.regs = s.regs ∨
    (s.regs.ph = Config.phIdle ∧
      ((∃ v, t.regs = s.regs.accept v) ∨ ∃ a v, t.regs = s.regs.poke a v)) := by
  rcases hostInstr_cases w with ⟨-, -, -, i⟩ | ⟨-, -, -, i⟩ | ⟨-, -, i⟩ | ⟨-, i⟩ <;> rw [i] at e
  · rcases execEnc_cases e with ⟨h, rfl⟩ | ⟨-, rfl⟩
    · exact .inr ⟨h, .inl ⟨Config.opEnc, rfl⟩⟩
    · exact .inl rfl
  · rcases execDec_cases e with ⟨h, rfl⟩ | ⟨-, rfl⟩
    · exact .inr ⟨h, .inl ⟨Config.opDec, rfl⟩⟩
    · exact .inl rfl
  · rcases execWr_cases e with ⟨h, -, rfl⟩ | ⟨h, -, rfl⟩ | ⟨-, rfl⟩
    · exact .inr ⟨h, .inl ⟨_, rfl⟩⟩
    · exact .inr ⟨h, .inr ⟨_, _, rfl⟩⟩
    · exact .inl rfl
  · rw [execRd_cases e]
    exact .inl rfl

end Sys2Proof.Machine
end

section
/-! SUPPORT. The invariant is kept by every core step, every host line, every step and every run (10_state.md R26, R27,
R31, R36, R37). -/

namespace Sys2Proof.Safety

open Sys2Proof.Machine

/-- Every register at zero satisfies the invariant (R35). -/
theorem inv_reset : Inv Regs.reset :=
  .of_idle rfl (by decide) (fun k h => by simp [Regs.reset]) (by decide) (by decide)

/-- An accepted write of `CMD` keeps the invariant (R121). -/
theorem Inv.accept {r : Regs} (I : Inv r) (v : Byte) : Inv (r.accept v) := by
  rcases r.accept_cases v with ⟨-, e⟩ | ⟨-, e⟩ | ⟨-, -, e⟩ <;> rw [e]
  · exact I.acceptEnc
  · exact I.acceptDec
  · exact I.raise _

/-- A host line keeps the invariant. -/
theorem Inv.exec_hostInstr {w : TxWord} {s t : State} (I : Inv s.regs) (e : exec (hostInstr w) s = .next t) :
    Inv t.regs := by
  rcases exec_hostInstr_cases e with h | ⟨hp, ⟨v, h⟩ | ⟨a, v, h⟩⟩ <;> rw [h]
  · exact I
  · exact I.accept v
  · exact I.poke hp a v

/-- The digits stay below 62 when one below 62 is stored (R31). -/
theorem digits_set {ds : Vector Digit 43} (hds : ∀ k (h : k < 43), (ds[k]).toNat ≤ 61) {n : Nat} (hn : n < 43)
    {d : Digit} (hd : d.toNat ≤ 61) : ∀ k (h : k < 43), ((ds.set n d hn)[k]).toNat ≤ 61 := by
  intro k h
  rw [Vector.getElem_set]
  split
  · exact hd
  · exact hds k h

/-- One division moves a place from `ACC` to `DS` and keeps the loop's equation (R36, R164). -/
theorem divide_equation (ds : Vector Digit 43) {n a : Nat} (hn : n < 43) {d : Digit} (hd : d.toNat = a % 62) :
    62 ^ (n + 1) * (a / 62) + dsValue (ds.set n d hn) (n + 1) = 62 ^ n * a + dsValue ds n := by
  rw [dsValue_set, hd]
  calc 62 ^ (n + 1) * (a / 62) + (a % 62 * 62 ^ n + dsValue ds n)
      = 62 ^ n * (62 * (a / 62) + a % 62) + dsValue ds n := by ring
    _ = 62 ^ n * a + dsValue ds n := by rw [Nat.div_add_mod]

/-! ### The invariant in flight: in each phase, the clause of R36 that speaks of it -/

section
variable {r : Regs} (st : r.status = 0x01#8) (digits : ∀ k (h : k < 43), (r.ds[k]).toNat ≤ 61)
  (dcnt : r.dcnt.toNat ≤ 43) (idx : r.idx.toNat ≤ 43)
include st digits dcnt idx

theorem Inv.of_encDiv (h : r.ph = Config.phEncDiv)
    (c : r.blen.toNat ≤ 32 ∧ r.acc.toNat < 2 ^ 256 ∧
      62 ^ r.dcnt.toNat * r.acc.toNat + dsValue r.ds r.dcnt.toNat = bytesToNat r.b r.blen.toNat)
    (more : r.dcnt = 0#6 ∨ r.acc ≠ 0#257) : Inv r :=
  .of_parts (.inr ⟨st, by simp [h]⟩) (by simp [h]) digits
    ⟨dcnt, idx, fun _ => c, by simp [h], by simp [h], by simp [h]⟩ fun _ => more

theorem Inv.of_encRev (h : r.ph = Config.phEncRev) (c : r.idx.toNat < r.dcnt.toNat ∧ r.acc = 0#257) : Inv r :=
  .of_parts (.inr ⟨st, by simp [h]⟩) (by simp [h]) digits
    ⟨dcnt, idx, by simp [h], fun _ => ⟨by omega, dcnt, c⟩, by simp [h], by simp [h]⟩ (by simp [h])

theorem Inv.of_decMac (h : r.ph = Config.phDecMac)
    (c : r.clen.toNat ≤ 43 ∧ r.idx.toNat < r.clen.toNat ∧ r.acc.toNat < 62 ^ r.idx.toNat) : Inv r :=
  .of_parts (.inr ⟨st, by simp [h]⟩) (by simp [h]) digits
    ⟨dcnt, idx, by simp [h], by simp [h], fun _ => c, by simp [h]⟩ (by simp [h])

theorem Inv.of_decChk (h : r.ph = Config.phDecChk)
    (c : r.clen.toNat ≤ 43 ∧ r.acc.toNat < 62 ^ r.clen.toNat) : Inv r :=
  .of_parts (.inr ⟨st, by simp [h]⟩) (by simp [h]) digits
    ⟨dcnt, idx, by simp [h], by simp [h], by simp [h], fun _ => c⟩ (by simp [h])

end

/-! ### The core steps -/

/-- `ENC_DIV` keeps the invariant (R165). -/
theorem Inv.execEncDiv {s t : State} (I : Inv s.regs) (h : s.regs.ph = Config.phEncDiv)
    (e : execEncDiv s = .next t) : Inv t.regs := by
  obtain ⟨hn, q, d, hq, hd, rfl⟩ := execEncDiv_cases e
  obtain ⟨hb, ha, heq⟩ := I.counters.encDiv h
  rw [Nat.mod_eq_of_lt ha] at hq hd
  have st := I.status_of_busy (by simp [h])
  have hds := digits_set I.digits hn (d := d) (by omega)
  have hcnt : (s.regs.dcnt + 1#6).toNat = s.regs.dcnt.toNat + 1 := count_succ (by omega)
  have hacc : (q.setWidth 257).toNat = s.regs.acc.toNat / 62 := by
    rw [BitVec.toNat_setWidth_of_le (by omega), hq]
  by_cases q0 : q = 0#256
  · simp only [q0, if_true, State.setRegs_regs]
    exact .of_encRev st hds (hcnt ▸ hn) (Nat.zero_le _) rfl ⟨hcnt ▸ Nat.succ_pos _, by simp⟩
  · simp only [q0, if_false, State.setRegs_regs]
    refine .of_encDiv st hds (hcnt ▸ hn) I.counters.idx h ⟨hb, ?_, ?_⟩ (.inr fun z => q0 ?_)
    · simp only [hacc]
      omega
    · simp only [hcnt, hacc]
      rw [divide_equation s.regs.ds hn hd]
      exact heq
    · have hz : (q.setWidth 257).toNat = 0 := by
        rw [show q.setWidth 257 = 0#257 from z, BitVec.toNat_zero]
      exact BitVec.eq_of_toNat_eq (hq.trans (hacc.symm.trans hz))

/-- `ENC_REV` keeps the invariant (R168). -/
theorem Inv.execEncRev {s t : State} (I : Inv s.regs) (h : s.regs.ph = Config.phEncRev)
    (e : execEncRev s = .next t) : Inv t.regs := by
  obtain ⟨hlt, hk, hj, c', -, last⟩ := execEncRev_cases e
  obtain ⟨-, -, -, hacc⟩ := I.counters.encRev h
  have hidx : (s.regs.idx + 1#6).toNat = s.regs.idx.toNat + 1 := count_succ (by omega)
  rcases last with ⟨-, rfl⟩ | ⟨hne, rfl⟩
  · exact .of_idle rfl (by simp; decide) I.digits I.counters.dcnt (hidx ▸ hj)
  · refine .of_encRev (I.status_of_busy (by simp [h])) I.digits I.counters.dcnt (hidx ▸ hj) h ⟨?_, hacc⟩
    simp only [State.setRegs_regs, hidx]
    omega

/-- `DEC_MAC` keeps the invariant (R144, R195). -/
theorem Inv.execDecMac {s t : State} (I : Inv s.regs) (h : s.regs.ph = Config.phDecMac)
    (e : execDecMac s = .next t) : Inv t.regs := by
  obtain ⟨hj, ⟨-, rfl⟩ | ⟨d, hd, rfl⟩⟩ := execDecMac_cases e
  · exact I.raise _
  obtain ⟨hc, hi, ha⟩ := I.counters.decMac h
  have st := I.status_of_busy (by simp [h])
  have hidx : (s.regs.idx + 1#6).toNat = s.regs.idx.toNat + 1 := count_succ (by omega)
  have hacc := mulAdd62_lt (by omega : s.regs.idx.toNat ≤ 42) ha (digitOf_le hd)
  by_cases last : s.regs.idx.toNat + 1 = s.regs.clen.toNat
  · simp only [last, if_true, State.setRegs_regs]
    exact .of_decChk st I.digits I.counters.dcnt (hidx ▸ hj) rfl ⟨hc, last ▸ hacc⟩
  · simp only [last, if_false, State.setRegs_regs]
    refine .of_decMac st I.digits I.counters.dcnt (hidx ▸ hj) h ⟨hc, ?_, ?_⟩
    · simp only [hidx]
      omega
    · simp only [hidx]
      exact hacc

/-- `DEC_CHK` keeps the invariant (R198). -/
theorem Inv.execDecChk {s t : State} (I : Inv s.regs) (e : execDecChk s = .next t) : Inv t.regs := by
  rcases execDecChk_cases e with ⟨-, rfl⟩ | ⟨-, rfl⟩
  · exact I.raise _
  · generalize accToBytes s.regs.acc = b
    exact .of_idle rfl (by simp; decide) I.digits I.counters.dcnt I.counters.idx

/-- Every step keeps the invariant. -/
theorem Inv.step {s t : State} (I : Inv s.regs) (e : step s = .next t) : Inv t.regs := by
  obtain ⟨u, hr, -, c⟩ := step_cases e
  rw [← hr] at I
  cases c with
  | encDiv h e => exact I.execEncDiv (hr ▸ h) e
  | encRev h e => exact I.execEncRev (hr ▸ h) e
  | decMac h e => exact I.execDecMac (hr ▸ h) e
  | decChk h e => exact I.execDecChk e
  | noStep h e => exact e ▸ I
  | access w h e => exact I.exec_hostInstr e
  | macroRead a h e => exact e ▸ I
  | reset h e => exact e ▸ inv_reset

/-- The invariant holds in every reachable state. -/
theorem Reachable.inv {s : State} (h : Reachable s) : Inv s.regs := by
  obtain ⟨moves, n, e⟩ := h
  exact run_keeps (P := fun s => Inv s.regs) (fun _ _ I e => I.step e) inv_reset e

end Sys2Proof.Safety
end

section
/-! SUPPORT. The block cannot tell apart two states that differ in what the next operation overwrites (10_state.md R33). -/

namespace Sys2Proof.Safety

open Sys2Proof.Machine

/-- The same registers with another digit accumulator. -/
abbrev withDigits (r : Regs) (ds : Vector Digit 43) : Regs := { r with ds := ds }

/-- Two digit accumulators hold the same valid entries, the first `n` (R32). -/
def SameDigits (n : Nat) (ds ds' : Vector Digit 43) : Prop := ∀ k (h : k < 43), k < n → ds[k] = ds'[k]

/-- A digit stored behind the valid entries is one valid entry more. -/
theorem SameDigits.set {n : Nat} {ds ds' : Vector Digit 43} (h : SameDigits n ds ds') (hn : n < 43) (d : Digit) :
    SameDigits (n + 1) (ds.set n d) (ds'.set n d) := by
  intro k hk hlt
  rw [Vector.getElem_set, Vector.getElem_set]
  split
  · rfl
  · exact h k hk (by omega)

/-- Registers that behave alike: at rest the host-visible ones agree and the working registers are anything; in any
phase all agree but the entries of `DS` that are not valid. -/
inductive Alike : Regs → Regs → Prop where
  | idle {r r' : Regs} (h : r.ph = Config.phIdle) (h' : r'.ph = Config.phIdle) (view : r'.view = r.view) : Alike r r'
  | digits (r : Regs) (ds : Vector Digit 43) (same : SameDigits r.dcnt.toNat r.ds ds) : Alike r (withDigits r ds)

theorem Alike.refl (r : Regs) : Alike r r := .digits r r.ds fun _ _ _ => rfl

theorem Alike.view_eq {r r' : Regs} : Alike r r' → r'.view = r.view
  | .idle _ _ view => view
  | .digits _ _ _ => rfl

theorem Alike.ph_eq {r r' : Regs} : Alike r r' → r'.ph = r.ph
  | .idle h h' _ => h'.trans h.symm
  | .digits _ _ _ => rfl

/-- In flight only entries of `DS` that are not valid can differ. -/
theorem Alike.digits_of_busy {r r' : Regs} (a : Alike r r') (h : r.ph ≠ Config.phIdle) :
    ∃ ds, SameDigits r.dcnt.toNat r.ds ds ∧ r' = withDigits r ds := by
  cases a with
  | idle h₀ => exact absurd h₀ h
  | digits ds same => exact ⟨ds, same, rfl⟩

/-- The host reads the same byte (R62, R64). -/
theorem Alike.hostRead_eq {r r' : Regs} (a : Alike r r') (x : Offset) : r'.hostRead x = r.hostRead x := by
  cases a with
  | idle h h' view => rw [Regs.hostRead_idle h, Regs.hostRead_idle h', Regs.peek_congr view]
  | digits _ _ => rfl

/-! ### Host writes and acceptance -/

/-- A gated change keeps registers alike when it does so at rest (R64). -/
theorem Alike.gated {r r' : Regs} (a : Alike r r') {f : Regs → Regs}
    (hf : r.ph = Config.phIdle → r'.ph = Config.phIdle → r'.view = r.view → Alike (f r) (f r')) :
    Alike (r.gated f) (r'.gated f) := by
  by_cases h : r.ph = Config.phIdle
  · have h' := a.ph_eq.trans h
    rw [Regs.gated_idle h, Regs.gated_idle h']
    exact hf h h' a.view_eq
  · rw [Regs.gated_busy h, Regs.gated_busy (a.ph_eq ▸ h)]
    exact a

/-- The registers with another content of the working registers, those a host cannot see (R33). -/
abbrev withHidden (r : Regs) (acc : Accum) (ds : Vector Digit 43) (dcnt idx : Count) : Regs :=
  { r with acc := acc, ds := ds, dcnt := dcnt, idx := idx }

/-- Equal views and phases leave only the working registers to differ. -/
theorem eq_withHidden {r r' : Regs} (h : r'.ph = r.ph) (view : r'.view = r.view) :
    r' = withHidden r r'.acc r'.ds r'.dcnt r'.idx := by
  cases r
  cases r'
  simp only [Regs.view, HostView.mk.injEq] at view h
  simp [withHidden, view, h]

section
variable {r r' : Regs} (h : r.ph = Config.phIdle) (h' : r'.ph = Config.phIdle) (view : r'.view = r.view)
include h h' view

/-- An error completion leaves the host-visible registers in agreement (R228). -/
theorem alike_raise (k : ErrKind) : Alike (r.raise k) (r'.raise k) := by
  rw [eq_withHidden (h'.trans h.symm) view]
  exact .idle rfl rfl rfl

/-- The load overwrites every working register the encode uses (R163). -/
theorem alike_acceptEnc : Alike r.acceptEnc r'.acceptEnc := by
  have blen : r'.blen = r.blen := congrArg HostView.blen view
  rcases r.acceptEnc_cases with ⟨hl, e⟩ | ⟨hl, e⟩ <;>
    rcases r'.acceptEnc_cases with ⟨hl', e'⟩ | ⟨hl', e'⟩ <;> rw [blen] at hl'
  · rw [e, e']
    exact alike_raise h h' view _
  · omega
  · omega
  · rw [e, e', eq_withHidden (h'.trans h.symm) view]
    exact .digits r.loadEnc r'.ds fun k _ hk => absurd hk (Nat.not_lt_zero k)

/-- The start overwrites every working register the decode uses (R194). -/
theorem alike_acceptDec : Alike r.acceptDec r'.acceptDec := by
  have clen : r'.clen = r.clen := congrArg HostView.clen view
  rcases r.acceptDec_cases with ⟨hl, e⟩ | ⟨hl, e⟩ <;>
    rcases r'.acceptDec_cases with ⟨hl', e'⟩ | ⟨hl', e'⟩ <;> rw [clen] at hl'
  · rw [e, e']
    exact alike_raise h h' view _
  · omega
  · omega
  · rw [e, e', eq_withHidden (h'.trans h.symm) view]
    exact .digits r.startDec r'.ds fun k _ hk => absurd hk (Nat.not_lt_zero k)

theorem alike_accept (v : Byte) : Alike (r.accept v) (r'.accept v) := by
  unfold Regs.accept
  split
  · exact alike_acceptEnc h h' view
  · split
    · exact alike_acceptDec h h' view
    · exact alike_raise h h' view _

/-- A plain store does not look at the working registers and does not change them (R63). -/
theorem alike_poke (a : Offset) (v : Byte) : Alike (r.poke a v) (r'.poke a v) := by
  rw [eq_withHidden (h'.trans h.symm) view]
  unfold Regs.poke
  split_ifs <;> exact .idle h h rfl

theorem alike_idleWrite (a : Offset) (v : Byte) : Alike (r.idleWrite a v) (r'.idleWrite a v) := by
  unfold Regs.idleWrite
  split
  · exact alike_accept h h' view v
  · exact alike_poke h h' view a v

end

/-! ### States -/

/-- States that behave alike: the registers do, and the host has the same moves to come and the same replies. -/
structure AlikeState (s u : State) : Prop where
  regs : Alike s.regs u.regs
  script : u.script = s.script
  replies : u.replies = s.replies

theorem AlikeState.setRegs {s u : State} (a : AlikeState s u) {r r' : Regs} (h : Alike r r') :
    AlikeState (s.setRegs r) (u.setRegs r') := ⟨h, a.script, a.replies⟩

/-- A read gives the host the same byte (R62, R64). -/
theorem AlikeState.reply {s u : State} (a : AlikeState s u) {v w : Byte} (h : w = v) :
    AlikeState (s.reply v) (u.reply w) := ⟨a.regs, a.script, by simp [h, a.replies]⟩

/-- `o` answers a next state like `t`. -/
abbrev AnswersLike (t : State) (o : Host.Outcome State Fault Refusal) : Prop := ∃ v, o = .next v ∧ AlikeState t v

/-- A host line treats states alike. -/
theorem AlikeState.exec_hostInstr {s u t : State} (a : AlikeState s u) {w : TxWord}
    (e : exec (hostInstr w) s = .next t) : AnswersLike t (exec (hostInstr w) u) := by
  rcases hostInstr_cases w with ⟨-, -, -, i⟩ | ⟨-, -, -, i⟩ | ⟨-, -, i⟩ | ⟨-, i⟩ <;> rw [i] at e ⊢ <;> cases e
  · exact ⟨_, rfl, a.setRegs (a.regs.gated alike_acceptEnc)⟩
  · exact ⟨_, rfl, a.setRegs (a.regs.gated alike_acceptDec)⟩
  · exact ⟨_, rfl, a.setRegs (a.regs.gated fun h h' view => alike_idleWrite h h' view _ _)⟩
  · exact ⟨_, rfl, a.reply (a.regs.hostRead_eq _)⟩

/-! ### The core steps read no entry of `DS` that is not valid -/

section
variable {s t : State} {ds : Vector Digit 43} (same : SameDigits s.regs.dcnt.toNat s.regs.ds ds)
include same

theorem execEncDiv_withDigits (e : execEncDiv s = .next t) :
    AnswersLike t (execEncDiv (s.setRegs (withDigits s.regs ds))) := by
  obtain ⟨hn, -⟩ := execEncDiv_cases e
  have hcnt : (s.regs.dcnt + 1#6).toNat = s.regs.dcnt.toNat + 1 := count_succ (by omega)
  simp only [execEncDiv, State.setRegs_regs, Regs.setDigit_of_lt _ hn] at e ⊢
  cases e
  exact ⟨_, rfl, .digits _ _ (hcnt.symm ▸ same.set hn _), rfl, rfl⟩

theorem execEncRev_withDigits (e : execEncRev s = .next t) :
    AnswersLike t (execEncRev (s.setRegs (withDigits s.regs ds))) := by
  obtain ⟨hlt, hk, hj, -⟩ := execEncRev_cases e
  by_cases last : s.regs.idx.toNat + 1 = s.regs.dcnt.toNat
  · simp only [execEncRev, State.setRegs_regs, hlt, last, if_true, Regs.digitAt_of_lt _ hk, Regs.setChar_of_lt _ hj,
      same _ hk (by omega)] at e ⊢
    cases e
    exact ⟨_, rfl, .digits _ _ same, rfl, rfl⟩
  · simp only [execEncRev, State.setRegs_regs, hlt, last, if_true, if_false, Regs.digitAt_of_lt _ hk,
      Regs.setChar_of_lt _ hj, same _ hk (by omega)] at e ⊢
    cases e
    exact ⟨_, rfl, .digits _ _ same, rfl, rfl⟩

theorem execDecMac_withDigits (e : execDecMac s = .next t) :
    AnswersLike t (execDecMac (s.setRegs (withDigits s.regs ds))) := by
  obtain ⟨hj, ⟨hd, rfl⟩ | ⟨d, hd, rfl⟩⟩ := execDecMac_cases e
  · simp only [execDecMac, State.setRegs_regs, Regs.charAt_of_lt _ hj, hd]
    exact ⟨_, rfl, .digits _ _ same, rfl, rfl⟩
  · simp only [execDecMac, State.setRegs_regs, Regs.charAt_of_lt _ hj, hd]
    exact ⟨_, rfl, .digits _ _ same, rfl, rfl⟩

theorem execDecChk_withDigits (e : execDecChk s = .next t) :
    AnswersLike t (execDecChk (s.setRegs (withDigits s.regs ds))) := by
  rcases execDecChk_cases e with ⟨hv, rfl⟩ | ⟨hv, rfl⟩
  · simp only [execDecChk, State.setRegs_regs, hv]
    exact ⟨_, rfl, .digits _ _ same, rfl, rfl⟩
  · simp only [execDecChk, State.setRegs_regs, hv]
    generalize accToBytes s.regs.acc = b
    exact ⟨_, rfl, .digits _ _ same, rfl, rfl⟩

/-- The core step a phase selects answers alike. -/
theorem exec_coreStep_withDigits {p : Phase} {i : Instr} (d : decode (.ph3 p) = .ok i) (e : exec i s = .next t) :
    AnswersLike t (exec i (s.setRegs (withDigits s.regs ds))) := by
  rcases decodePhase_cases p with ⟨-, c⟩ | ⟨-, c⟩ | ⟨-, c⟩ | ⟨-, c⟩ | ⟨-, c⟩ | ⟨-, c⟩ <;> rw [c] at d <;> cases d
  · exact execEncDiv_withDigits same e
  · exact execEncRev_withDigits same e
  · exact execDecMac_withDigits same e
  · exact execDecChk_withDigits same e

end

/-! ### Steps and runs -/

/-- In flight a state alike is the same state but for entries of `DS` that are not valid. -/
theorem AlikeState.setRegs_of_busy {s u : State} (a : AlikeState s u) (h : s.regs.ph ≠ Config.phIdle) :
    ∃ ds, SameDigits s.regs.dcnt.toNat s.regs.ds ds ∧ u = s.setRegs (withDigits s.regs ds) := by
  obtain ⟨ds, same, hr⟩ := a.regs.digits_of_busy h
  refine ⟨ds, same, ?_⟩
  rw [State.setRegs, ← hr, ← a.script, ← a.replies]

/-- A turn of the core treats states alike (R122). -/
theorem AlikeState.coreTurn {s u t : State} (a : AlikeState s u) (e : (coreTurn s).perform = .next t) :
    AnswersLike t (coreTurn u).perform := by
  unfold Machine.coreTurn at e ⊢
  rw [a.regs.ph_eq]
  cases d : decode (.ph3 s.regs.ph) with
  | ok i =>
    rw [d] at e
    have busy : s.regs.ph ≠ Config.phIdle := by
      intro h
      rw [h] at d
      cases d
    obtain ⟨ds, same, rfl⟩ := a.setRegs_of_busy busy
    exact exec_coreStep_withDigits same d e
  | error x =>
    rw [d] at e
    cases e
    exact ⟨u, rfl, a⟩

/-- A read treats states alike (R62, R64). -/
theorem AlikeState.execRd {s u t : State} (a : AlikeState s u) {x : Offset} (e : execRd x s = .next t) :
    AnswersLike t (execRd x u) := by
  rw [execRd_cases e]
  exact ⟨_, rfl, a.reply (a.regs.hostRead_eq x)⟩

/-- Every step treats states alike. -/
theorem AlikeState.step {s u t : State} (a : AlikeState s u) (e : step s = .next t) : AnswersLike t (step u) := by
  obtain ⟨r, script, replies⟩ := s
  obtain ⟨r', script', replies'⟩ := u
  obtain ⟨hr, hs, hp⟩ := a
  cases hs
  cases hp
  have moved {rest rest' : List Move} (h : rest' = rest) :
      AlikeState ⟨r, rest, replies⟩ ⟨r', rest', replies⟩ := ⟨hr, h, rfl⟩
  cases script with
  | nil => exact (moved rfl).coreTurn e
  | cons m rest =>
    cases m with
    | core => exact (moved (rest := rest) rfl).coreTurn e
    | access w => exact (moved (rest := rest) rfl).exec_hostInstr e
    | poll =>
      have after : afterPoll r' rest = afterPoll r rest := by rw [afterPoll, afterPoll, hr.hostRead_eq]
      exact (moved after).execRd e
    | getC =>
      have after : afterGetC r' rest = afterGetC r rest := by rw [afterGetC, afterGetC, hr.hostRead_eq]
      exact (moved after).execRd e
    | test =>
      have after : afterTest r' rest = afterTest r rest := by rw [afterTest, afterTest, hr.hostRead_eq]
      exact (moved after).execRd e
    | reset =>
      cases e
      exact ⟨_, rfl, .refl _, rfl, rfl⟩
    | wide z => cases e

/-- Every run treats states alike. -/
theorem AlikeState.run {n : Nat} {s u t : State} (a : AlikeState s u)
    (e : Host.Core.run core n s = .next t) : AnswersLike t (Host.Core.run core n u) := by
  induction n generalizing s u with
  | zero =>
    cases e
    exact ⟨u, rfl, a⟩
  | succ n ih =>
    obtain ⟨s', e₁, e₂⟩ := run_succ_eq_next.mp e
    obtain ⟨u', f₁, a'⟩ := a.step e₁
    obtain ⟨v, f₂, a''⟩ := ih a' e₂
    exact ⟨v, run_succ_eq_next.mpr ⟨u', f₁, f₂⟩, a''⟩

end Sys2Proof.Safety
end

section
/-! SUPPORT. The statements about the state of 10_state.md, settled. -/

namespace Sys2Proof.Proofs

open Sys2Proof.Machine Sys2Proof.Safety

/-- Settles O1: the reset state is written out register by register. -/
theorem resetValues : Obligations.ResetValues :=
  ⟨fun i h => by simp [State.reset, Regs.reset], rfl, fun j h => by simp [State.reset, Regs.reset], rfl, rfl, rfl, rfl,
    fun k h => by simp [State.reset, Regs.reset], rfl, rfl, by decide, rfl⟩

/-- Settles O45. -/
theorem invAtReset : Obligations.InvAtReset := inv_reset

/-- Settles O46, by the move the step takes: one lemma per core step and one for the host's lines. -/
theorem stepKeepsInv : Obligations.StepKeepsInv := fun _ _ I e => I.step e

/-- Settles O48: the invariant holds in every reachable state and contains R26 and R27. -/
theorem statusRuleReachable : Obligations.StatusRuleReachable := by
  intro s hs
  obtain ⟨busy, exclusive, errDone, reserved⟩ := hs.inv.status
  exact ⟨busy, exclusive, errDone, reserved, hs.inv.statusValue⟩

/-- Settles O49: the invariant holds in every reachable state and contains R36. -/
theorem counterRuleReachable : Obligations.CounterRuleReachable := by
  intro s hs
  obtain ⟨dcnt, idx, encDiv, encRev, decMac, decChk⟩ := hs.inv.counters
  refine ⟨dcnt, idx, encDiv, encRev, decMac, fun h => ?_⟩
  obtain ⟨hc, ha⟩ := decChk h
  exact ⟨hc, ha, pow62_le hc⟩

/-- Settles O57: idle states with equal views are alike, and runs keep states alike. -/
theorem hiddenStateInvisible : Obligations.HiddenStateInvisible := by
  intro n s₁ s₂ t₁ h₁ h₂ view script replies e
  have start : AlikeState s₁ s₂ := ⟨.idle h₁ h₂ view.symm, script.symm, replies.symm⟩
  obtain ⟨t₂, e₂, a⟩ := start.run e
  exact ⟨t₂, e₂, a.regs.view_eq, a.regs.ph_eq, a.script, a.replies⟩

/-! ### O6 -/

/-- None of the seven values of `STATUS` has an `ERR` code of 5 to 7 (R26, R37). -/
theorem statusErr_lt_five {v : Byte} (h : v ∈ [0x00#8, 0x01#8, 0x02#8, 0x06#8, 0x0A#8, 0x0E#8, 0x12#8]) :
    (statusErr v).toNat < 5 := by
  revert v
  decide

/-- With an unused phase no step but a reset changes a register (R37). -/
theorem step_regs_of_unusedPhase {s t : State} (h : 5 ≤ s.regs.ph.toNat) (hr : s.script.head? ≠ some .reset)
    (e : step s = .next t) : t.regs = s.regs := by
  have no : ∀ p : Phase, p.toNat < 5 → s.regs.ph ≠ p := fun p hp hs => by rw [hs] at h; omega
  obtain ⟨u, hu, -, c⟩ := step_cases e
  cases c with
  | encDiv p e => exact absurd p (no _ (by decide))
  | encRev p e => exact absurd p (no _ (by decide))
  | decMac p e => exact absurd p (no _ (by decide))
  | decChk p e => exact absurd p (no _ (by decide))
  | noStep p e => rw [e, hu]
  | access w p e =>
    rcases exec_hostInstr_cases e with same | ⟨idle, -⟩
    · rw [same, hu]
    · exact absurd (hu ▸ idle) (no _ (by decide))
  | macroRead a p e => rw [e, State.reply_regs, hu]
  | reset p e => exact absurd p hr

/-- With an unused phase a turn of the core changes nothing (R37). -/
theorem coreTurn_of_unusedPhase {s : State} (h : 5 ≤ s.regs.ph.toNat) : coreTurn s = .quiet s := by
  have d : decode (.ph3 s.regs.ph) = .error (.unusedPhase s.regs.ph) := by
    generalize s.regs.ph = p at h
    revert p
    decide
  rw [coreTurn, d]

/-- With an unused phase every step but a wide access is a next state. -/
theorem step_next_of_unusedPhase {s : State} (h : 5 ≤ s.regs.ph.toNat)
    (hw : ∀ z, s.script.head? ≠ some (.wide z)) : ∃ t, step s = .next t := by
  obtain ⟨r, script, replies⟩ := s
  cases script with
  | nil => exact ⟨_, congrArg Turn.perform (coreTurn_of_unusedPhase h)⟩
  | cons m rest =>
    cases m with
    | core => exact ⟨_, congrArg Turn.perform (coreTurn_of_unusedPhase (s := ⟨r, rest, replies⟩) h)⟩
    | access w => exact exec_hostInstr_next w _
    | poll => exact ⟨_, rfl⟩
    | getC => exact ⟨_, rfl⟩
    | test => exact ⟨_, rfl⟩
    | reset => exact ⟨_, rfl⟩
    | wide z => exact absurd rfl (hw z)

/-- Settles O6: the invariant rules the unused codes out, and an unused phase selects no step. -/
theorem unusedPhaseIsStuck : Obligations.UnusedPhaseIsStuck := by
  refine ⟨fun s hs => ?_, fun s t => step_regs_of_unusedPhase, fun s => step_next_of_unusedPhase⟩
  exact ⟨Nat.lt_succ_of_le hs.inv.phase, statusErr_lt_five hs.inv.statusValue⟩

end Sys2Proof.Proofs
end

section
/-! SUPPORT. The register space under host accesses (20_memory.md R62 to R67): what `RD`, `WR` and the commands do in
each phase, and the frame of a plain store. -/

namespace Sys2Proof.Machine

/-! ### Accesses at rest and in flight -/

theorem exec_rd (a : Offset) (s : State) : exec (.rd a) s = .next (s.reply (s.regs.hostRead a)) := rfl

theorem exec_wr_idle {s : State} (h : s.regs.ph = Config.phIdle) (a : Offset) (v : Byte) :
    exec (.wr a v) s = .next (s.setRegs (s.regs.idleWrite a v)) := by
  rw [exec, execWr, Regs.gated_idle h]

theorem exec_wr_busy {s : State} (h : s.regs.ph ≠ Config.phIdle) (a : Offset) (v : Byte) :
    exec (.wr a v) s = .next s := by
  rw [exec, execWr, Regs.gated_busy h, State.setRegs_self]

theorem exec_enc_busy {s : State} (h : s.regs.ph ≠ Config.phIdle) : exec .enc s = .next s := by
  rw [exec, execEnc, Regs.gated_busy h, State.setRegs_self]

theorem exec_dec_busy {s : State} (h : s.regs.ph ≠ Config.phIdle) : exec .dec s = .next s := by
  rw [exec, execDec, Regs.gated_busy h, State.setRegs_self]

theorem Regs.idleWrite_cmd (r : Regs) (v : Byte) : r.idleWrite Config.cmdOffset v = r.accept v := if_pos rfl

theorem Regs.idleWrite_of_ne (r : Regs) {a : Offset} (h : a ≠ Config.cmdOffset) (v : Byte) :
    r.idleWrite a v = r.poke a v := if_neg h

/-! ### Offsets by their number -/

theorem ne_cmdOffset {a : Offset} (h : a.toNat ≠ 34) : a ≠ Config.cmdOffset := by
  rintro rfl
  exact h rfl

theorem ne_statusOffset {a : Offset} (h : a.toNat ≠ 35) : a ≠ Config.statusOffset := by
  rintro rfl
  exact h rfl

theorem toNat_ne_of_ne {a x : Offset} (h : x ≠ a) : a.toNat ≠ x.toNat := fun e => h (BitVec.eq_of_toNat_eq e.symm)

/-- A reserved offset reads 0x00 in every phase (R65). -/
theorem Regs.hostRead_reserved (r : Regs) {a : Offset} (h : (36 ≤ a.toNat ∧ a.toNat < 64) ∨ 107 ≤ a.toNat) :
    r.hostRead a = 0#8 := by
  by_cases hp : r.ph = Config.phIdle
  · rw [Regs.hostRead_idle hp, r.peek_reserved h]
  · rw [Regs.hostRead_busy hp, if_neg (ne_statusOffset (by omega))]

/-- A write to a reserved offset answers the same state in every phase (R65). -/
theorem exec_wr_reserved (s : State) {a : Offset} (h : (36 ≤ a.toNat ∧ a.toNat < 64) ∨ 107 ≤ a.toNat) (v : Byte) :
    exec (.wr a v) s = .next s := by
  by_cases hp : s.regs.ph = Config.phIdle
  · rw [exec_wr_idle hp, s.regs.idleWrite_of_ne (ne_cmdOffset (by omega)), s.regs.poke_reserved h,
      State.setRegs_self]
  · exact exec_wr_busy hp a v

/-! ### The frame of a plain store -/

theorem Regs.peek_setB_of_ne (r : Regs) {a x : Offset} (h : a.toNat < 32) (ne : x ≠ a) (v : Byte) :
    Regs.peek { r with b := r.b.set a.toNat v h } x = r.peek x := by
  by_cases hx : x.toNat < 32
  · rw [Regs.peek_b _ hx, Regs.peek_b _ hx]
    exact Vector.getElem_set_ne h hx (toNat_ne_of_ne ne)
  · rw [Regs.peek, Regs.peek, dif_neg hx, dif_neg hx]

theorem Regs.peek_setBlen_of_ne (r : Regs) {x : Offset} (ne : x ≠ Config.blenOffset) (v : Byte) :
    Regs.peek { r with blen := v } x = r.peek x := by
  rw [Regs.peek, Regs.peek, if_neg ne, if_neg ne]

theorem Regs.peek_setClen_of_ne (r : Regs) {x : Offset} (ne : x ≠ Config.clenOffset) (v : Byte) :
    Regs.peek { r with clen := v } x = r.peek x := by
  rw [Regs.peek, Regs.peek, if_neg ne, if_neg ne]

theorem Regs.peek_setC_of_ne (r : Regs) {x : Offset} {j : Nat} (h : j < 43) (ne : x.toNat ≠ 64 + j) (v : Byte) :
    Regs.peek { r with c := r.c.set j v h } x = r.peek x := by
  by_cases hx : Config.cBase ≤ x.toNat ∧ x.toNat - Config.cBase < 43
  · have hx' : x.toNat = 64 + (x.toNat - 64) := (Nat.add_sub_cancel' hx.1).symm
    rw [Regs.peek_c _ hx.2 hx', Regs.peek_c _ hx.2 hx']
    exact Vector.getElem_set_ne h hx.2 fun e => ne (e ▸ hx')
  · rw [Regs.peek, Regs.peek, dif_neg hx, dif_neg hx]

/-- A plain store changes no other location (R63). -/
theorem Regs.peek_poke_of_ne (r : Regs) {a x : Offset} (ne : x ≠ a) (v : Byte) :
    (r.poke a v).peek x = r.peek x := by
  rcases r.poke_cases a v with ⟨h, e⟩ | ⟨rfl, e⟩ | ⟨rfl, e⟩ | ⟨j, hj, ha, e⟩ | e <;> rw [e]
  · exact r.peek_setB_of_ne h ne v
  · exact r.peek_setBlen_of_ne ne v
  · exact r.peek_setClen_of_ne ne v
  · exact r.peek_setC_of_ne hj (ha ▸ (toNat_ne_of_ne ne).symm) v

/-- The registers with another content of the four that a host can store to (R63). -/
abbrev withOperands (r : Regs) (b : Vector Byte 32) (blen clen : Byte) (c : Vector Byte 43) : Regs :=
  { r with b := b, blen := blen, clen := clen, c := c }

/-- A plain store changes none of `STATUS`, `PH` and the working registers (R63). -/
theorem Regs.poke_eq_withOperands (r : Regs) (a : Offset) (v : Byte) :
    ∃ b blen clen c, r.poke a v = withOperands r b blen clen c := by
  rcases r.poke_cases a v with ⟨h, e⟩ | ⟨-, e⟩ | ⟨-, e⟩ | ⟨j, hj, -, e⟩ | e
  · exact ⟨_, r.blen, r.clen, r.c, e⟩
  · exact ⟨r.b, _, r.clen, r.c, e⟩
  · exact ⟨r.b, r.blen, _, r.c, e⟩
  · exact ⟨r.b, r.blen, r.clen, _, e⟩
  · exact ⟨r.b, r.blen, r.clen, r.c, e⟩

/-- What a plain store stores is read back, at every location that has storage (R63, R65, R276). -/
theorem Regs.peek_poke_same (r : Regs) {a : Offset} (h : a ≠ Config.cmdOffset) (v : Byte) :
    (r.poke a v).peek a = v ∨ (r.poke a v = r ∧ (a = Config.statusOffset ∨ r.peek a = 0#8)) := by
  rcases offset_cases a with ha | rfl | rfl | rfl | rfl | ha | ⟨j, hj, ha⟩ | ⟨ha, -⟩
  · left
    rw [r.poke_b ha, Regs.peek_b _ ha]
    exact Vector.getElem_set_self ha
  · left
    rw [r.poke_blen, Regs.peek_blen]
  · left
    rw [r.poke_clen, Regs.peek_clen]
  · exact absurd rfl h
  · exact .inr ⟨r.poke_status v, .inl rfl⟩
  · exact .inr ⟨r.poke_reserved (.inl ha) v, .inr (r.peek_reserved (.inl ha))⟩
  · left
    rw [r.poke_c hj ha, Regs.peek_c _ hj ha]
    exact Vector.getElem_set_self hj
  · exact .inr ⟨r.poke_reserved (.inr ha) v, .inr (r.peek_reserved (.inr ha))⟩

/-! ### The integer operand -/

/-- The value of a list of places as a sum of powers, `l[0]` most significant (R68, R69). -/
theorem ofPlaces_eq_sum (base : Nat) (l : List Nat) :
    ofPlaces base l = ∑ i ∈ Finset.range l.length, l.getD i 0 * base ^ (l.length - 1 - i) := by
  induction l with
  | nil => rfl
  | cons d l ih =>
    rw [ofPlaces_cons, ih, List.length_cons, Finset.sum_range_succ', Nat.add_comm]
    congr 1
    refine Finset.sum_congr rfl fun i _ => ?_
    rw [List.getD_cons_succ, Nat.add_sub_cancel, Nat.sub_sub, Nat.add_comm 1 i]

/-- R68, written out. -/
theorem bytesToNat_eq_sum (b : Vector Byte 32) {n : Nat} (h : n ≤ 32) :
    bytesToNat b n = ∑ i ∈ Finset.range n, (b.toList.getD i 0#8).toNat * 256 ^ (n - 1 - i) := by
  have len : ((b.toList.take n).map BitVec.toNat).length = n := by simp [h]
  rw [bytesToNat, ofPlaces_eq_sum, len]
  refine Finset.sum_congr rfl fun i hi => ?_
  have hi : i < n := Finset.mem_range.mp hi
  simp [List.getD_eq_getElem?_getD, hi, (by omega : i < 32)]

/-- Entries from `n` up are ignored (R68). -/
theorem bytesToNat_congr {b b' : Vector Byte 32} {n : Nat} (h : ∀ i (_ : i < 32), i < n → b[i] = b'[i]) :
    bytesToNat b n = bytesToNat b' n := by
  have same : b.toList.take n = b'.toList.take n := by
    refine List.ext_getElem (by simp) fun i hi _ => ?_
    have hi : i < n ∧ i < 32 := by simpa using hi
    simpa using h i hi.2 hi.1
  rw [bytesToNat, same, bytesToNat]

/-! ### Steps in flight -/

/-- In flight a step that is not a reset changes no register or is the core step `PH` selects (R64, R122). -/
theorem step_busy_cases {s t : State} (h : s.regs.ph ≠ Config.phIdle) (hr : s.script.head? ≠ some .reset)
    (e : step s = .next t) :
    t.regs = s.regs ∨
      ∃ u i, u.regs = s.regs ∧ decode (.ph3 s.regs.ph) = .ok i ∧ exec i u = .next t := by
  obtain ⟨u, hu, -, c⟩ := step_cases e
  cases c with
  | encDiv p e => exact .inr ⟨u, .encDiv, hu, by rw [p]; rfl, e⟩
  | encRev p e => exact .inr ⟨u, .encRev, hu, by rw [p]; rfl, e⟩
  | decMac p e => exact .inr ⟨u, .decMac, hu, by rw [p]; rfl, e⟩
  | decChk p e => exact .inr ⟨u, .decChk, hu, by rw [p]; rfl, e⟩
  | noStep p e => exact .inl (e ▸ hu)
  | access w p e =>
    rcases exec_hostInstr_cases e with same | ⟨idle, -⟩
    · exact .inl (same.trans hu)
    · exact absurd (hu ▸ idle) h
  | macroRead a p e => exact .inl (e ▸ hu)
  | reset p e => exact absurd p hr

/-- The steps of an encode leave the bytes and their length (R164, R168). -/
theorem exec_encStep_operand {u t : State} {i : Instr} (hi : i = .encDiv ∨ i = .encRev) (e : exec i u = .next t) :
    t.regs.b = u.regs.b ∧ t.regs.blen = u.regs.blen := by
  rcases hi with rfl | rfl
  · obtain ⟨-, q, d, -, -, rfl⟩ := execEncDiv_cases e
    exact ⟨rfl, rfl⟩
  · obtain ⟨-, -, -, c, -, ⟨-, rfl⟩ | ⟨-, rfl⟩⟩ := execEncRev_cases e
    · exact ⟨rfl, rfl⟩
    · exact ⟨rfl, rfl⟩

/-- The steps of a decode leave the characters and their number (R195, R198). -/
theorem exec_decStep_operand {u t : State} {i : Instr} (hi : i = .decMac ∨ i = .decChk) (e : exec i u = .next t) :
    t.regs.c = u.regs.c ∧ t.regs.clen = u.regs.clen := by
  rcases hi with rfl | rfl
  · obtain ⟨-, ⟨-, rfl⟩ | ⟨d, -, rfl⟩⟩ := execDecMac_cases e
    · exact ⟨rfl, rfl⟩
    · exact ⟨rfl, rfl⟩
  · obtain ⟨-, rfl⟩ | ⟨-, rfl⟩ := execDecChk_cases e
    · exact ⟨rfl, rfl⟩
    · generalize accToBytes u.regs.acc = b
      exact ⟨rfl, rfl⟩

/-- In `ENC_DIV` and `ENC_REV` the phase selects a step of an encode (R100). -/
theorem encStep_of_decode {p : Phase} {i : Instr} (hp : p = 1#3 ∨ p = 2#3) (d : decode (.ph3 p) = .ok i) :
    i = .encDiv ∨ i = .encRev := by
  rcases hp with rfl | rfl
  · exact .inl (Except.ok.inj d).symm
  · exact .inr (Except.ok.inj d).symm

/-- In `DEC_MAC` and `DEC_CHK` the phase selects a step of a decode (R100). -/
theorem decStep_of_decode {p : Phase} {i : Instr} (hp : p = 3#3 ∨ p = 4#3) (d : decode (.ph3 p) = .ok i) :
    i = .decMac ∨ i = .decChk := by
  rcases hp with rfl | rfl
  · exact .inl (Except.ok.inj d).symm
  · exact .inr (Except.ok.inj d).symm

/-! ### The host's moves -/

theorem step_access {s : State} {w : TxWord} {rest : List Move} (h : s.script = .access w :: rest) :
    step s = exec (hostInstr w) { s with script := rest } := by
  rw [step, nextTurn, h, Turn.perform]

theorem step_getC {s : State} {rest : List Move} (h : s.script = .getC :: rest) :
    step s = exec (.rd Config.clenOffset) { s with script := afterGetC s.regs rest } := by
  rw [step, nextTurn, h, Turn.perform]

theorem step_test {s : State} {rest : List Move} (h : s.script = .test :: rest) :
    step s = exec (.rd Config.statusOffset) { s with script := afterTest s.regs rest } := by
  rw [step, nextTurn, h, Turn.perform]

theorem step_wide {s : State} {z : WideSize} {rest : List Move} (h : s.script = .wide z :: rest) :
    step s = .refused .wideAccess := by
  rw [step, nextTurn, h, Turn.perform]

end Sys2Proof.Machine
end

section
/-! SUPPORT. The statements about the register space of 20_memory.md, settled. -/

namespace Sys2Proof.Proofs

open Sys2Proof.Machine Sys2Proof.Safety

/-- Settles O17: the bytes are places to the base 256. -/
theorem bytesBigEndian : Obligations.BytesBigEndian := by
  refine ⟨fun b n hn => ?_, fun _ _ _ => bytesToNat_congr⟩
  have lt := bytesToNat_lt b n hn
  exact ⟨bytesToNat_eq_sum b hn, lt, ofNat257_of_lt (lt_of_lt_of_le lt (pow256_le hn))⟩

/-- Settles O26: the busy gate, and the invariant for the value of `STATUS`. -/
theorem accessInFlight : Obligations.AccessInFlight := by
  refine ⟨fun s a v h => ⟨?_, exec_wr_busy h a v, exec_enc_busy h, exec_dec_busy h⟩,
    fun s hs h => hs.inv.status_of_busy h⟩
  rw [exec_rd, Regs.hostRead_busy h]
  rfl

/-- Settles O28: a write that is not a command is a plain store or is dropped. -/
theorem frameHostWrite : Obligations.FrameHostWrite := by
  intro s t a v ha e
  rcases execWr_cases e with ⟨-, h, -⟩ | ⟨-, -, rfl⟩ | ⟨busy, rfl⟩
  · exact absurd h ha
  · refine ⟨fun x ne => s.regs.peek_poke_of_ne ne v, fun _ => s.regs.peek_poke_same ha v, ?_⟩
    obtain ⟨b, blen, clen, c, hp⟩ := s.regs.poke_eq_withOperands a v
    rw [hp]
    exact ⟨rfl, rfl, rfl, rfl, rfl, rfl, rfl, rfl⟩
  · exact ⟨fun _ _ => rfl, fun idle => absurd idle busy, rfl, rfl, rfl, rfl, rfl, rfl, rfl, rfl⟩

/-- Settles O51: in flight only the core steps of the operation itself change a register. -/
theorem operandsConstantInFlight : Obligations.OperandsConstantInFlight := by
  intro s t hr e
  refine ⟨fun hp => ?_, fun hp => ?_⟩
  · have busy : s.regs.ph ≠ Config.phIdle := fun h => by simp [h] at hp
    rcases step_busy_cases busy hr e with same | ⟨u, i, hu, d, e⟩
    · exact same ▸ ⟨rfl, rfl⟩
    · exact hu ▸ exec_encStep_operand (encStep_of_decode hp d) e
  · have busy : s.regs.ph ≠ Config.phIdle := fun h => by simp [h] at hp
    rcases step_busy_cases busy hr e with same | ⟨u, i, hu, d, e⟩
    · exact same ▸ ⟨rfl, rfl⟩
    · exact hu ▸ exec_decStep_operand (decStep_of_decode hp d) e

/-- Settles O4. -/
theorem stepRunsHostLine : Obligations.StepRunsHostLine := by
  refine ⟨fun s w rest h => step_access h, fun s rest h => ?_, fun s rest h => step_test h⟩
  refine ⟨linesRd Config.cBase (min (s.regs.hostRead Config.clenOffset).toNat 64), step_getC h,
    linesRd_length _ _, fun k hk => ?_⟩
  rw [linesRd_length] at hk
  exact linesRd_getElem? hk

/-- Settles O8. -/
theorem wideAccessRefused : Obligations.WideAccessRefused := fun _ _ _ h => step_wide h

/-- Settles O24: at rest the host reads the register space, offset by offset. -/
theorem readWhenIdle : Obligations.ReadWhenIdle := by
  intro s a h
  refine ⟨s.regs.peek a, ?_, fun ha => s.regs.peek_b ha, ?_, ?_, ?_, ?_, fun j hj ha => s.regs.peek_c hj ha,
    fun h₁ h₂ => s.regs.peek_reserved (.inl ⟨h₁, by omega⟩), fun h₁ => s.regs.peek_reserved (.inr h₁)⟩
  · rw [exec_rd, Regs.hostRead_idle h]
    rfl
  · rintro rfl
    exact s.regs.peek_blen
  · rintro rfl
    exact s.regs.peek_clen
  · rintro rfl
    exact s.regs.peek_cmd
  · rintro rfl
    exact s.regs.peek_status

/-- Settles O25: at rest a write of `CMD` is its acceptance, every other one a plain store, offset by offset. -/
theorem writeWhenIdle : Obligations.WriteWhenIdle := by
  intro s a v h
  have store (ha : a.toNat ≠ 34) : s.regs.idleWrite a v = s.regs.poke a v :=
    s.regs.idleWrite_of_ne (ne_cmdOffset ha) v
  refine ⟨s.regs.idleWrite a v, exec_wr_idle h a v, fun ha => ?_, ?_, ?_, ?_, ?_, fun j hj ha => ?_,
    fun h₁ h₂ => ?_, fun h₁ => ?_⟩
  · rw [store (by omega), s.regs.poke_b ha]
  · rintro rfl
    exact s.regs.poke_blen v
  · rintro rfl
    exact s.regs.poke_clen v
  · rintro rfl
    exact s.regs.idleWrite_cmd v
  · rintro rfl
    exact s.regs.poke_status v
  · rw [store (by omega), s.regs.poke_c hj ha]
  · rw [store (by omega), s.regs.poke_reserved (.inl ⟨h₁, by omega⟩)]
  · rw [store (by omega), s.regs.poke_reserved (.inr h₁)]

/-- Settles O27. -/
theorem reservedOffsets : Obligations.ReservedOffsets := by
  intro s a v h
  have res : (36 ≤ a.toNat ∧ a.toNat < 64) ∨ 107 ≤ a.toNat := by omega
  refine ⟨?_, exec_wr_reserved s res v⟩
  rw [exec_rd, s.regs.hostRead_reserved res]
  rfl

/-- Settles O29: the read leaves the registers, and what it returns is a function of them. -/
theorem frameHostRead : Obligations.FrameHostRead := by
  intro s t a e
  obtain rfl := execRd_cases e
  exact ⟨rfl, rfl, s.regs.hostRead a, rfl, rfl⟩

end Sys2Proof.Proofs
end

section
/-! SUPPORT. Transaction words by their fields, and the decoder read backwards (30_encoding.md R90, R100, R102). -/

namespace Sys2Proof

/-! ### A word is its three fields (R102) -/

/-- The numeric value of a word from `W`, `A` and `V`. -/
theorem txWord_toNat (w : TxWord) :
    w.toNat = 0x8000 * (txIsWrite w).toNat + 0x100 * (txOffset w).toNat + (txValue w).toNat := by
  have lt := w.isLt
  have hw : (txIsWrite w).toNat = w.toNat / 2 ^ 15 % 2 := by
    rw [txIsWrite, BitVec.getLsbD, Nat.toNat_testBit]
  have ha : (txOffset w).toNat = w.toNat / 2 ^ 8 % 2 ^ 7 := by
    rw [txOffset, BitVec.extractLsb'_toNat, Nat.shiftRight_eq_div_pow]
  have hv : (txValue w).toNat = w.toNat % 2 ^ 8 := by
    rw [txValue, BitVec.extractLsb'_toNat, Nat.shiftRight_zero]
  omega

/-- Words with the same fields are equal. -/
theorem txWord_ext {w w' : TxWord} (hw : txIsWrite w = txIsWrite w') (ha : txOffset w = txOffset w')
    (hv : txValue w = txValue w') : w = w' :=
  BitVec.eq_of_toNat_eq (by rw [txWord_toNat, txWord_toNat w', hw, ha, hv])

@[simp] theorem txValue_encodeRd (a : Offset) : txValue (encodeRd a) = 0#8 := by
  refine BitVec.eq_of_getLsbD_eq fun i hi => ?_
  simp only [txValue, encodeRd, BitVec.getLsbD_extractLsb', BitVec.getLsbD_shiftLeft, BitVec.getLsbD_setWidth]
  interval_cases i <;> simp

/-- The word of a read of `a` with `v` in its `V` field, which the decoder ignores (R102). -/
def readWord (a : Offset) (v : Byte) : TxWord := (a.setWidth 16 <<< 8) ||| v.setWidth 16

@[simp] theorem txIsWrite_readWord (a : Offset) (v : Byte) : txIsWrite (readWord a v) = false := by
  simp [txIsWrite, readWord]

@[simp] theorem txOffset_readWord (a : Offset) (v : Byte) : txOffset (readWord a v) = a := by
  refine BitVec.eq_of_getLsbD_eq fun i hi => ?_
  simp only [txOffset, readWord, BitVec.getLsbD_extractLsb', BitVec.getLsbD_or, BitVec.getLsbD_shiftLeft,
    BitVec.getLsbD_setWidth]
  interval_cases i <;> simp

/-- The mask 0xFF00 clears the `V` field of a word. -/
def clearV (w : TxWord) : TxWord := w &&& 0xFF00#16

@[simp] theorem txIsWrite_clearV (w : TxWord) : txIsWrite (clearV w) = txIsWrite w := by
  simp [txIsWrite, clearV]

@[simp] theorem txOffset_clearV (w : TxWord) : txOffset (clearV w) = txOffset w := by
  refine BitVec.eq_of_getLsbD_eq fun i hi => ?_
  simp only [txOffset, clearV, BitVec.getLsbD_extractLsb', BitVec.getLsbD_and]
  interval_cases i <;> simp

@[simp] theorem txValue_clearV (w : TxWord) : txValue (clearV w) = 0#8 := by
  refine BitVec.eq_of_getLsbD_eq fun i hi => ?_
  simp only [txValue, clearV, BitVec.getLsbD_extractLsb', BitVec.getLsbD_and]
  interval_cases i <;> simp

/-- A write is encoded from its fields. -/
theorem encodeWr_fields {w : TxWord} (h : txIsWrite w = true) : encodeWr (txOffset w) (txValue w) = w :=
  txWord_ext (by simp [h]) (by simp) (by simp)

/-- A read is encoded from its offset, with 0x00 as its `V` field. -/
theorem encodeRd_fields {w : TxWord} (h : txIsWrite w = false) : encodeRd (txOffset w) = clearV w :=
  txWord_ext (by simp [h]) (by simp) (by simp)

theorem encodeWr_toNat (a : Offset) (v : Byte) :
    (encodeWr a v).toNat = 0x8000 + 0x100 * a.toNat + v.toNat := by
  simp [txWord_toNat]

theorem encodeRd_toNat (a : Offset) : (encodeRd a).toNat = 0x100 * a.toNat := by
  simp [txWord_toNat]

/-! ### The decoder read backwards -/

theorem decodeTx_of_write {w : TxWord} (h : txIsWrite w = true) : decodeTx w = .wr (txOffset w) (txValue w) :=
  if_pos h

theorem decodeTx_of_read {w : TxWord} (h : txIsWrite w = false) : decodeTx w = .rd (txOffset w) := by
  simp [decodeTx, h]

/-- An instruction is read back from its code. -/
theorem decode_encode : ∀ i : Instr, decode (encode i) = .ok i
  | .enc => Laws.RoundTrip.enc
  | .dec => Laws.RoundTrip.dec
  | .encDiv => Laws.RoundTrip.encDiv
  | .encRev => Laws.RoundTrip.encRev
  | .decMac => Laws.RoundTrip.decMac
  | .decChk => Laws.RoundTrip.decChk
  | .wr a v => Laws.RoundTrip.wr a v
  | .rd a => Laws.RoundTrip.rd a

/-- A command byte that decodes is the code of its command (R91). -/
theorem encode_of_decodeCommand {op : Byte} {i : Instr} (h : decodeCommand op = .ok i) : encode i = .cmd8 op := by
  unfold decodeCommand at h
  split at h
  · next e => cases h; rw [e]; rfl
  · split at h
    · next e => cases h; rw [e]; rfl
    · cases h

/-- A phase that selects a step is the code of that step (R100). -/
theorem encode_of_decodePhase {p : Phase} {i : Instr} (h : decode (.ph3 p) = .ok i) : encode i = .ph3 p := by
  rcases Machine.decodePhase_cases p with ⟨rfl, e⟩ | ⟨rfl, e⟩ | ⟨rfl, e⟩ | ⟨rfl, e⟩ | ⟨rfl, e⟩ | ⟨-, e⟩ <;>
    rw [e] at h <;> cases h <;> rfl

/-- A transaction word is the code of its transaction, but for the `V` field of a read (R102). -/
theorem encode_decodeTx (w : TxWord) :
    encode (decodeTx w) = .tx16 w ∨ (txIsWrite w = false ∧ encode (decodeTx w) = .tx16 (clearV w)) := by
  by_cases h : txIsWrite w = true
  · left
    rw [decodeTx_of_write h, encode, encodeWr_fields h]
  · right
    have h : txIsWrite w = false := by simpa using h
    exact ⟨h, by rw [decodeTx_of_read h, encode, encodeRd_fields h]⟩

/-- A code that decodes is the code of its instruction, but for the `V` field of a read. -/
theorem encode_of_decode {c : Code} {i : Instr} (h : decode c = .ok i) :
    encode i = c ∨ ∃ w : TxWord, c = .tx16 w ∧ txIsWrite w = false ∧ encode i = .tx16 (clearV w) := by
  cases c with
  | cmd8 op => exact .inl (encode_of_decodeCommand h)
  | ph3 p => exact .inl (encode_of_decodePhase h)
  | tx16 w =>
    obtain rfl : decodeTx w = i := Except.ok.inj h
    rcases encode_decodeTx w with e | e
    · exact .inl e
    · exact .inr ⟨w, rfl, e⟩

/-! ### Host lines (R90, R101) -/

theorem hostInstr_encodeWr (a : Offset) (v : Byte) : hostInstr (encodeWr a v) = commandName (.wr a v) := by
  rw [hostInstr, decodeTx_encodeWr]

theorem hostInstr_encodeRd (a : Offset) : hostInstr (encodeRd a) = .rd a := by
  rw [hostInstr, decodeTx_encodeRd, commandName]

/-- A write that is no command under another name keeps its name. -/
theorem commandName_of_wf {a : Offset} {v : Byte} (h : Instr.wf (.wr a v) = true) :
    commandName (.wr a v) = .wr a v := by
  by_cases ha : a = Config.cmdOffset
  · have hv : v ≠ Config.opEnc ∧ v ≠ Config.opDec := by simpa [Instr.wf, isCommandCode, ha] using h
    simp [commandName, ha, decodeCommand, hv]
  · rw [commandName, if_neg ha]

/-- A well-formed instruction is read back from its script line. -/
theorem hostInstr_scriptWord {i : Instr} {w : TxWord} (h : i.wf = true) (e : scriptWord i = some w) :
    hostInstr w = i := by
  cases i with
  | enc => cases e; rw [hostInstr_encodeWr]; rfl
  | dec => cases e; rw [hostInstr_encodeWr]; rfl
  | encDiv => cases e
  | encRev => cases e
  | decMac => cases e
  | decChk => cases e
  | wr a v => cases e; rw [hostInstr_encodeWr, commandName_of_wf h]
  | rd a => cases e; exact hostInstr_encodeRd a

/-- A script line reads as a well-formed instruction. -/
theorem hostInstr_wf (w : TxWord) : (hostInstr w).wf = true := by
  rcases Machine.hostInstr_cases w with ⟨-, -, -, e⟩ | ⟨-, -, -, e⟩ | ⟨-, no, e⟩ | ⟨-, e⟩ <;> rw [e]
  · rfl
  · rfl
  · simpa [Instr.wf, isCommandCode, or_iff_not_imp_left] using no
  · rfl

end Sys2Proof
end

section
/-! SUPPORT. The turn of the core and the poll of `WAIT` (30_encoding.md R100, R101; 40_commands.md R122). -/

namespace Sys2Proof.Machine

/-! ### The core's turn and the poll -/

theorem coreTurn_of_decode {s : State} {i : Instr} (d : decode (.ph3 s.regs.ph) = .ok i) :
    coreTurn s = .run i s := by
  rw [coreTurn, d]

theorem coreTurn_of_idle {s : State} (h : s.regs.ph = Config.phIdle) : coreTurn s = .quiet s := by
  rw [coreTurn, h]
  rfl

theorem step_core {s : State} {rest : List Move} (h : s.script = .core :: rest) :
    step s = (coreTurn { s with script := rest }).perform := by
  rw [step, nextTurn, h]

theorem step_of_script_nil {s : State} (h : s.script = []) : step s = (coreTurn s).perform := by
  rw [step, nextTurn, h]

/-- A poll replies `STATUS` and is repeated, after a turn of the core, while `BUSY` is set (R101). -/
theorem step_poll {s : State} {rest : List Move} (h : s.script = .poll :: rest) :
    step s = .next { s with
      script := if statusBusy s.regs.status then .core :: .poll :: rest else rest
      replies := s.regs.status :: s.replies } := by
  rw [step, nextTurn, h]
  simp only [Turn.perform, afterPoll, exec_rd, State.reply, Regs.hostRead_status]

end Sys2Proof.Machine
end

section
/-! SUPPORT. `ALPHA` inverts `DIGIT` (30_encoding.md R97). -/

namespace Sys2Proof.Machine

theorem alpha_digitOf {ch : Byte} {d : Digit} (h : digitOf ch = some d) : alpha d = ch := by
  have all : ∀ ch : Byte, (digitOf ch).all (fun d => alpha d = ch) = true := by decide
  simpa [h] using all ch

end Sys2Proof.Machine
end

section
/-! SUPPORT. The byte rendering of a value (30_encoding.md R95): the places of a number, and the slices of `ACC`. -/

namespace Sys2Proof.Machine

/-- The lowest `n` places of `v`, most significant first, are `v` modulo `base ^ n`. -/
theorem ofPlaces_places (base : Nat) (n v : Nat) :
    ofPlaces base ((List.range n).map fun i => v / base ^ (n - 1 - i) % base) = v % base ^ n := by
  induction n generalizing v with
  | zero => simp [Nat.mod_one]
  | succ n ih =>
    have high : ∀ i ∈ List.range n, v / base ^ (n + 1 - 1 - i) % base = v / base / base ^ (n - 1 - i) % base := by
      intro i hi
      have hi : i < n := List.mem_range.mp hi
      rw [Nat.div_div_eq_div_mul, ← pow_succ', (by omega : n - 1 - i + 1 = n + 1 - 1 - i)]
    rw [List.range_succ, List.map_append, List.map_congr_left high, List.map_singleton, ofPlaces_concat, ih,
      pow_succ', Nat.mod_mul, Nat.add_sub_cancel, Nat.sub_self, pow_zero, Nat.div_one, Nat.add_comm]

theorem natToBytes32_getElem (v : Nat) {i : Nat} (h : i < 32) :
    (natToBytes32 v)[i] = BitVec.ofNat 8 (v / 256 ^ (31 - i) % 256) := by
  simp only [natToBytes32, Vector.getElem_ofFn]

theorem natToBytes32_getElem_toNat (v : Nat) {i : Nat} (h : i < 32) :
    ((natToBytes32 v)[i]).toNat = v / 256 ^ (31 - i) % 256 := by
  rw [natToBytes32_getElem v h, BitVec.toNat_ofNat, Nat.mod_mod]

/-- The bytes of a value, as numbers, are its places to the base 256. -/
theorem natToBytes32_toNat (v : Nat) :
    (natToBytes32 v).toList.map BitVec.toNat = (List.range 32).map fun i => v / 256 ^ (32 - 1 - i) % 256 := by
  refine List.ext_getElem (by simp) fun i h _ => ?_
  have hi : i < 32 := by simpa using h
  simp only [List.getElem_map, Vector.getElem_toList, List.getElem_range, natToBytes32_getElem_toNat v hi]

/-- The value of the bytes of a value is the value (R95). -/
theorem bytesToNat_natToBytes32 {v : Nat} (h : v < 2 ^ 256) : bytesToNat (natToBytes32 v) 32 = v := by
  have all : (natToBytes32 v).toList.take 32 = (natToBytes32 v).toList := List.take_of_length_le (by simp)
  rw [bytesToNat, all, natToBytes32_toNat, ofPlaces_places]
  exact Nat.mod_eq_of_lt (lt_of_lt_of_le h (by norm_num))

/-- A byte of the value of `ACC` is a slice of `ACC` (R95, R198). -/
theorem natToBytes32_acc (a : Accum) {i : Nat} (h : i < 32) :
    (natToBytes32 a.toNat)[i] = a.extractLsb' (8 * (31 - i)) 8 := by
  apply BitVec.eq_of_toNat_eq
  rw [natToBytes32_getElem_toNat _ h, BitVec.extractLsb'_toNat, Nat.shiftRight_eq_div_pow, pow_mul]
  rfl

/-- What `DEC_CHK` writes to `B` is the rendering of the value of `ACC` (R198). -/
theorem accToBytes_eq (a : Accum) : accToBytes a = natToBytes32 a.toNat := by
  refine Vector.ext fun i h => ?_
  rw [natToBytes32_acc a h, accToBytes, Vector.getElem_ofFn]

end Sys2Proof.Machine
end

section
/-! SUPPORT. A buffer with a list written over it: the buffers of the host's `SETB` and `SETC` (30_encoding.md R101) and
of `ENC_REV` (42_encode.md R168). -/

namespace Sys2Proof.Machine

/-- `old` with `l` written over it from entry `j` on; what would pass the end is dropped. -/
def writeFrom {n : Nat} (old : Vector Byte n) (j : Nat) (l : List Byte) : Vector Byte n :=
  Vector.ofFn fun i => if i.val < j then old[i] else (l[i.val - j]?).getD old[i]

theorem writeFrom_getElem {n : Nat} (old : Vector Byte n) (j : Nat) (l : List Byte) {i : Nat} (h : i < n) :
    (writeFrom old j l)[i] = if i < j then old[i] else (l[i - j]?).getD old[i] := by
  simp only [writeFrom, Vector.getElem_ofFn, Fin.getElem_fin]

@[simp] theorem writeFrom_nil {n : Nat} (old : Vector Byte n) (j : Nat) : writeFrom old j [] = old := by
  refine Vector.ext fun i h => ?_
  simp [writeFrom_getElem]

/-- The first entry is written, and then the rest behind it. -/
theorem writeFrom_set {n : Nat} (old : Vector Byte n) {j : Nat} (h : j < n) (x : Byte) (l : List Byte) :
    writeFrom (old.set j x) (j + 1) l = writeFrom old j (x :: l) := by
  refine Vector.ext fun i hi => ?_
  rw [writeFrom_getElem, writeFrom_getElem, Vector.getElem_set]
  rcases lt_trichotomy i j with lt | rfl | gt
  · rw [if_pos (by omega), if_neg (by omega), if_pos lt]
  · rw [if_pos (by omega), if_pos rfl, if_neg (by omega), Nat.sub_self, List.getElem?_cons_zero, Option.getD_some]
  · rw [if_neg (by omega), if_neg (by omega), if_neg (by omega), (by omega : i - j = i - (j + 1) + 1),
      List.getElem?_cons_succ]

theorem take_writeFrom_zero {n : Nat} (old : Vector Byte n) {l : List Byte} (h : l.length ≤ n) :
    (writeFrom old 0 l).toList.take l.length = l := by
  refine List.ext_getElem (by simpa using h) fun i _ hi => ?_
  simp [writeFrom_getElem, hi]

theorem writeString_eq (old : Vector Byte 43) (s : List Byte) : writeString old s = writeFrom old 0 s := by
  refine Vector.ext fun i h => ?_
  simp [writeString, writeFrom_getElem]

end Sys2Proof.Machine
end

section
/-! SUPPORT. Runs put one after another, and the lines of a host script at rest (30_encoding.md R101). -/

namespace Sys2Proof.Machine

/-! ### Runs one after another -/

theorem core_run_trans (M : Host.Core) {m n : Nat} {s u t : M.State} (h₁ : M.run m s = .next u)
    (h₂ : M.run n u = .next t) : M.run (m + n) s = .next t := by
  induction m generalizing s with
  | zero =>
    cases h₁
    rwa [Nat.zero_add]
  | succ m ih =>
    obtain ⟨w, e, h₁⟩ := (core_run_succ_eq_next M).mp h₁
    rw [Nat.succ_add]
    exact (core_run_succ_eq_next M).mpr ⟨w, e, ih h₁⟩

theorem run_trans {m n : Nat} {s u t : State} (h₁ : Host.Core.run core m s = .next u)
    (h₂ : Host.Core.run core n u = .next t) : Host.Core.run core (m + n) s = .next t :=
  core_run_trans core h₁ h₂

theorem run_cons {n : Nat} {s u t : State} (e : step s = .next u) (h : Host.Core.run core n u = .next t) :
    Host.Core.run core (n + 1) s = .next t := run_succ_eq_next.mpr ⟨u, e, h⟩

theorem run_one {s u : State} (e : step s = .next u) : Host.Core.run core 1 s = .next u := run_cons e rfl

/-! ### Lines -/

/-- A write of a command code to `CMD` has the command's effect (R90, R101; log entry 14). -/
theorem exec_commandName (i : Instr) (s : State) : exec (commandName i) s = exec i s := by
  cases i with
  | enc | dec | encDiv | encRev | decMac | decChk | rd => rfl
  | wr a v =>
    by_cases ha : a = Config.cmdOffset
    · subst ha
      by_cases h₁ : v = Config.opEnc
      · subst h₁; rfl
      · by_cases h₂ : v = Config.opDec
        · subst h₂; rfl
        · simp [commandName, decodeCommand, h₁, h₂]
    · rw [commandName, if_neg ha]

/-- At rest a line `WR a, v` is the write of R63, a command's acceptance among them (R121). -/
theorem step_encodeWr {r : Regs} (h : r.ph = Config.phIdle) (a : Offset) (v : Byte) (rest : List Move)
    (replies : List Byte) :
    step ⟨r, .access (encodeWr a v) :: rest, replies⟩ = .next ⟨r.idleWrite a v, rest, replies⟩ := by
  rw [step_access rfl, hostInstr_encodeWr, exec_commandName, exec_wr_idle h]
  rfl

theorem step_encodeRd (r : Regs) (a : Offset) (rest : List Move) (replies : List Byte) :
    step ⟨r, .access (encodeRd a) :: rest, replies⟩ = .next ⟨r, rest, r.hostRead a :: replies⟩ := by
  rw [step_access rfl, hostInstr_encodeRd]
  rfl

/-- The lines that write `l` store it in the buffer `x` of the registers `put x` whose entries lie at `base`. -/
theorem run_linesWr {n base : Nat} {put : Vector Byte n → Regs} (idle : ∀ x, (put x).ph = Config.phIdle)
    (store : ∀ x j (h : j < n) v, (put x).idleWrite (BitVec.ofNat 7 (base + j)) v = put (x.set j v))
    (l : List Byte) {j : Nat} (h : j + l.length ≤ n) (x : Vector Byte n) (rest : List Move) (replies : List Byte) :
    Host.Core.run core l.length ⟨put x, linesWr (base + j) l ++ rest, replies⟩ =
      .next ⟨put (writeFrom x j l), rest, replies⟩ := by
  induction l generalizing x j with
  | nil =>
    rw [writeFrom_nil]
    rfl
  | cons v l ih =>
    rw [List.length_cons] at h
    have hj : j < n := by omega
    have first := step_encodeWr (idle x) (BitVec.ofNat 7 (base + j)) v (linesWr (base + j + 1) l ++ rest) replies
    rw [store x j hj v] at first
    refine run_cons first ?_
    rw [← writeFrom_set x hj, Nat.add_assoc]
    exact ih (by omega) _

/-- The lines that read `l.length` offsets from `a` reply `l`, when that is what the host reads there. -/
theorem run_linesRd {r : Regs} (l : List Byte) {a : Nat}
    (h : ∀ k (hk : k < l.length), r.hostRead (BitVec.ofNat 7 (a + k)) = l[k]) (rest : List Move)
    (replies : List Byte) :
    Host.Core.run core l.length ⟨r, linesRd a l.length ++ rest, replies⟩ =
      .next ⟨r, rest, l.reverse ++ replies⟩ := by
  induction l generalizing a replies with
  | nil => rfl
  | cons v l ih =>
    have first := step_encodeRd r (BitVec.ofNat 7 a) (linesRd (a + 1) l.length ++ rest) replies
    have head : r.hostRead (BitVec.ofNat 7 a) = v := h 0 (by simp)
    rw [head] at first
    refine run_cons first ?_
    rw [List.reverse_cons, List.append_assoc]
    refine ih (fun k hk => ?_) _
    rw [Nat.add_assoc, Nat.add_comm 1 k]
    exact h (k + 1) (by simpa using hk)

/-! ### `SETB`, `SETC`, `GETB`, `GETC` and the test (R101) -/

/-- The offset `n` of the register space has the number `n`. -/
theorem offset_toNat {n : Nat} (h : n < 128) : (BitVec.ofNat 7 n).toNat = n := by
  rw [BitVec.toNat_ofNat]
  exact Nat.mod_eq_of_lt h

/-- The registers with `data` as the byte sequence (R94). -/
def Regs.withData (r : Regs) (data : List Byte) : Regs :=
  { r with b := writeFrom r.b 0 data, blen := BitVec.ofNat 8 data.length }

/-- The registers with `text` as the string (R98). -/
def Regs.withText (r : Regs) (text : List Byte) : Regs :=
  { r with c := writeFrom r.c 0 text, clen := BitVec.ofNat 8 text.length }

/-- Unfolded first: by `rfl` alone Lean would compare the two registers entry by entry. -/
@[simp] theorem Regs.withData_ph (r : Regs) (data : List Byte) : (r.withData data).ph = r.ph := by
  rw [Regs.withData]

@[simp] theorem Regs.withText_ph (r : Regs) (text : List Byte) : (r.withText text).ph = r.ph := by
  rw [Regs.withText]

theorem Regs.idleWrite_b (r : Regs) {j : Nat} (h : j < 32) (v : Byte) :
    r.idleWrite (BitVec.ofNat 7 (0x00 + j)) v = { r with b := r.b.set j v } := by
  have ha : (BitVec.ofNat 7 (0x00 + j)).toNat = j := by rw [Nat.zero_add, offset_toNat (by omega)]
  rw [r.idleWrite_of_ne (ne_cmdOffset (by omega)), r.poke_b (by omega)]
  simp only [ha]

theorem Regs.idleWrite_c (r : Regs) {j : Nat} (h : j < 43) (v : Byte) :
    r.idleWrite (BitVec.ofNat 7 (0x40 + j)) v = { r with c := r.c.set j v } := by
  have ha : (BitVec.ofNat 7 (0x40 + j)).toNat = 0x40 + j := offset_toNat (by omega)
  rw [r.idleWrite_of_ne (ne_cmdOffset (by omega)), r.poke_c h ha]

/-- `SETB data` at rest, for at most 32 bytes. -/
theorem run_setB {r : Regs} (h : r.ph = Config.phIdle) {data : List Byte} (len : data.length ≤ 32)
    (rest : List Move) (replies : List Byte) :
    Host.Core.run core (data.length + 1) ⟨r, (Pseudo.setB data).expand ++ rest, replies⟩ =
      .next ⟨r.withData data, rest, replies⟩ := by
  have bytes := run_linesWr (base := 0) (put := fun x => { r with b := x }) (fun _ => h)
    (fun x j hj v => Regs.idleWrite_b { r with b := x } hj v) data (j := 0) (by omega) r.b
    (lineWr 0x20 (BitVec.ofNat 8 data.length) :: rest) replies
  have length := step_encodeWr (r := { r with b := writeFrom r.b 0 data }) h Config.blenOffset
    (BitVec.ofNat 8 data.length) rest replies
  rw [Regs.idleWrite_of_ne _ (by decide), Regs.poke_blen] at length
  rw [Pseudo.expand, List.append_assoc]
  exact run_trans bytes (run_one length)

/-- `SETC text` at rest, for at most 43 characters. -/
theorem run_setC {r : Regs} (h : r.ph = Config.phIdle) {text : List Byte} (len : text.length ≤ 43)
    (rest : List Move) (replies : List Byte) :
    Host.Core.run core (text.length + 1) ⟨r, (Pseudo.setC text).expand ++ rest, replies⟩ =
      .next ⟨r.withText text, rest, replies⟩ := by
  have chars := run_linesWr (base := 0x40) (put := fun x => { r with c := x }) (fun _ => h)
    (fun x j hj v => Regs.idleWrite_c { r with c := x } hj v) text (j := 0) (by omega) r.c
    (lineWr 0x21 (BitVec.ofNat 8 text.length) :: rest) replies
  have length := step_encodeWr (r := { r with c := writeFrom r.c 0 text }) h Config.clenOffset
    (BitVec.ofNat 8 text.length) rest replies
  rw [Regs.idleWrite_of_ne _ (by decide), Regs.poke_clen] at length
  rw [Pseudo.expand, List.append_assoc]
  exact run_trans chars (run_one length)

/-- A length of at most 255 is kept by the length registers (R22, R24). -/
theorem length_toNat {n : Nat} (h : n < 256) : (BitVec.ofNat 8 n).toNat = n := by
  rw [BitVec.toNat_ofNat]
  exact Nat.mod_eq_of_lt h

theorem Regs.withData_blen (r : Regs) {data : List Byte} (h : data.length ≤ 32) :
    (r.withData data).blen.toNat = data.length := length_toNat (by omega)

theorem Regs.withText_clen (r : Regs) {text : List Byte} (h : text.length ≤ 43) :
    (r.withText text).clen.toNat = text.length := length_toNat (by omega)

/-- The operand of an `ENC` after `SETB data` is the big-endian value of the data (R94). -/
theorem Regs.encOperand_withData (r : Regs) {data : List Byte} (h : data.length ≤ 32) :
    (r.withData data).encOperand = ofPlaces 256 (data.map BitVec.toNat) := by
  rw [Regs.encOperand, r.withData_blen h, bytesToNat, Regs.withData, take_writeFrom_zero _ h]

theorem Regs.decOperand_length {r : Regs} (h : r.clen.toNat ≤ 43) : r.decOperand.length = r.clen.toNat := by
  simp [Regs.decOperand, h]

/-- The operand of a `DEC` after `SETC text` is the text (R98). -/
theorem Regs.decOperand_withText (r : Regs) {text : List Byte} (h : text.length ≤ 43) :
    (r.withText text).decOperand = text := by
  rw [Regs.decOperand, r.withText_clen h, Regs.withText, take_writeFrom_zero _ h]

/-- `GETB` at rest replies the 32 bytes. -/
theorem run_getB {r : Regs} (h : r.ph = Config.phIdle) (rest : List Move) (replies : List Byte) :
    Host.Core.run core 32 ⟨r, Pseudo.getB.expand ++ rest, replies⟩ =
      .next ⟨r, rest, r.b.toList.reverse ++ replies⟩ := by
  have lines := run_linesRd (r := r) r.b.toList (a := 0x00) (fun k hk => ?_) rest replies
  · rwa [Vector.length_toList] at lines
  · have hk : k < 32 := by simpa using hk
    have ha : (BitVec.ofNat 7 (0x00 + k)).toNat = k := by rw [Nat.zero_add, offset_toNat (by omega)]
    rw [Regs.hostRead_idle h, r.peek_b (by omega), Vector.getElem_toList]
    simp only [ha]

/-- `GETC` at rest replies the count and then the characters of the string. -/
theorem run_getC {r : Regs} (h : r.ph = Config.phIdle) (len : r.clen.toNat ≤ 43) (rest : List Move)
    (replies : List Byte) :
    Host.Core.run core (r.clen.toNat + 1) ⟨r, Pseudo.getC.expand ++ rest, replies⟩ =
      .next ⟨r, rest, r.decOperand.reverse ++ r.clen :: replies⟩ := by
  have count : r.hostRead Config.clenOffset = r.clen := by rw [Regs.hostRead_idle h, r.peek_clen]
  have first : step ⟨r, .getC :: rest, replies⟩ =
      .next ⟨r, linesRd 0x40 r.clen.toNat ++ rest, r.clen :: replies⟩ := by
    rw [step_getC rfl, exec_rd, afterGetC]
    simp only [State.reply, count, Nat.min_eq_left (by omega : r.clen.toNat ≤ 64)]
  have lines := run_linesRd (r := r) r.decOperand (a := 0x40) (fun k hk => ?_) rest (r.clen :: replies)
  · rw [Regs.decOperand_length len] at lines
    exact run_cons first lines
  · rw [Regs.decOperand_length len] at hk
    rw [Regs.hostRead_idle h, r.peek_c (by omega) (offset_toNat (by omega))]
    simp [Regs.decOperand]

/-- The test at rest replies `STATUS` and goes on after a success (R270). -/
theorem step_test_success {r : Regs} (h : r.status = statusSuccess) (rest : List Move) (replies : List Byte) :
    step ⟨r, .test :: rest, replies⟩ = .next ⟨r, rest, statusSuccess :: replies⟩ := by
  have status : r.hostRead Config.statusOffset = statusSuccess := r.hostRead_status.trans h
  rw [step_test rfl, exec_rd, afterTest_of_ok rest (by rw [status]; decide)]
  simp only [State.reply, status]

end Sys2Proof.Machine
end

section
/-! SUPPORT. Turns of the core one after another (40_commands.md R122, R128), whatever the host does in between, and the
run of the machine that they make under the polls of `WAIT` (30_encoding.md R101). -/

namespace Sys2Proof.Machine

/-- A turn of the core takes the registers `r` to `r'`, whatever moves are still to come and whatever was read. -/
def CoreTurn (r r' : Regs) : Prop :=
  ∀ script replies, (coreTurn ⟨r, script, replies⟩).perform = .next ⟨r', script, replies⟩

/-- `n` turns of the core, all of them in flight, take the registers `r` to `r'`. -/
inductive CoreRun : Nat → Regs → Regs → Prop where
  | done (r : Regs) : CoreRun 0 r r
  | turn {n : Nat} {r u r' : Regs} (busy : r.ph ≠ Config.phIdle) (status : r.status = statusInFlight)
      (first : CoreTurn r u) (rest : CoreRun n u r') : CoreRun (n + 1) r r'

theorem CoreRun.one {r r' : Regs} (busy : r.ph ≠ Config.phIdle) (status : r.status = statusInFlight)
    (first : CoreTurn r r') : CoreRun 1 r r' := .turn busy status first (.done r')

theorem CoreRun.trans {m n : Nat} {r u r' : Regs} (h₁ : CoreRun m r u) (h₂ : CoreRun n u r') :
    CoreRun (m + n) r r' := by
  induction h₁ with
  | done r => rwa [Nat.zero_add]
  | turn busy status first _ ih =>
    rw [Nat.succ_add]
    exact .turn busy status first (ih h₂)

/-- A core turn is the step that `PH` selects (R100). -/
theorem coreTurn_of_exec {r r' : Regs} {i : Instr} (d : decode (.ph3 r.ph) = .ok i)
    (e : ∀ s : State, s.regs = r → exec i s = .next (s.setRegs r')) : CoreTurn r r' := by
  intro script replies
  rw [coreTurn_of_decode (s := ⟨r, script, replies⟩) d]
  exact e ⟨r, script, replies⟩ rfl

/-- A poll of `WAIT` lets the core run until it is idle; its last reply is the final `STATUS` (R101, log entry 16). -/
theorem CoreRun.poll {n : Nat} {r r' : Regs} (h : CoreRun n r r') (done : statusBusy r'.status = false)
    (rest : List Move) (replies : List Byte) :
    ∃ k earlier, Host.Core.run core k ⟨r, .poll :: rest, replies⟩ = .next ⟨r', rest, r'.status :: earlier⟩ := by
  induction h generalizing replies with
  | done r =>
    refine ⟨1, replies, run_one ?_⟩
    rw [step_poll rfl, if_neg (by simp [done])]
  | @turn n r u r' busy status first _ ih =>
    obtain ⟨k, earlier, hk⟩ := ih done (r.status :: replies)
    have poll : step ⟨r, .poll :: rest, replies⟩ = .next ⟨r, .core :: .poll :: rest, r.status :: replies⟩ := by
      rw [step_poll rfl, if_pos (by simp [status, statusBusy, statusInFlight])]
    have turn : step ⟨r, .core :: .poll :: rest, r.status :: replies⟩ =
        .next ⟨u, .poll :: rest, r.status :: replies⟩ := by
      rw [step_core rfl, first]
    exact ⟨_, earlier, run_cons poll (run_cons turn hk)⟩

end Sys2Proof.Machine
end

section
/-! SUPPORT. What the core steps of an encode compute (42_encode.md R165, R168): one step, the two loops, the whole. -/

namespace Sys2Proof.Machine

/-! ### `ENC_DIV` -/

/-- The registers after one `ENC_DIV` on the value `a` (R165). -/
def Regs.divStep (r : Regs) (a : Nat) (h : r.dcnt.toNat < 43) : Regs :=
  { r with
    ds := r.ds.set r.dcnt.toNat (BitVec.ofNat 6 (a % 62))
    dcnt := r.dcnt + 1#6
    acc := BitVec.ofNat 257 (a / 62)
    idx := if a / 62 = 0 then 0#6 else r.idx
    ph := if a / 62 = 0 then Config.phEncRev else r.ph }

/-- The registers when the divide loop has ended, with the digits it has found (R165). -/
def Regs.divided (r : Regs) (ds : Vector Digit 43) (dcnt : Count) : Regs :=
  { r with acc := 0#257, ds := ds, dcnt := dcnt, idx := 0#6, ph := Config.phEncRev }

/-- On a zero quotient the loop ends. -/
theorem Regs.divStep_last (r : Regs) {a : Nat} (h : r.dcnt.toNat < 43) (q : a / 62 = 0) :
    r.divStep a h = r.divided (r.ds.set r.dcnt.toNat (BitVec.ofNat 6 (a % 62))) (r.dcnt + 1#6) := by
  simp only [Regs.divStep, Regs.divided, q, if_true]

/-- `DivMod62` on the low 256 bits of `ACC`, whose value is `a` (R141, R165). -/
theorem divMod62_low {acc : Accum} {a : Nat} (ha : a = acc.toNat % 2 ^ 256) :
    divMod62 (acc.extractLsb' 0 256) = (BitVec.ofNat 256 (a / 62), BitVec.ofNat 6 (a % 62)) := by
  have low : (acc.extractLsb' 0 256).toNat = a := by simp [ha]
  rw [divMod62, low]

theorem exec_encDiv {s : State} (h : s.regs.dcnt.toNat < 43) {a : Nat} (ha : a = s.regs.acc.toNat % 2 ^ 256) :
    exec .encDiv s = .next (s.setRegs (s.regs.divStep a h)) := by
  have lt : a / 62 < 2 ^ 256 := by omega
  have zero : BitVec.ofNat 256 (a / 62) = 0#256 ↔ a / 62 = 0 := by
    rw [← BitVec.toNat_inj, BitVec.toNat_ofNat, Nat.mod_eq_of_lt lt, BitVec.toNat_ofNat, Nat.zero_mod]
  have wide : (BitVec.ofNat 256 (a / 62)).setWidth 257 = BitVec.ofNat 257 (a / 62) := by
    apply BitVec.eq_of_toNat_eq
    rw [BitVec.toNat_setWidth, BitVec.toNat_ofNat, BitVec.toNat_ofNat, Nat.mod_eq_of_lt lt]
  rw [exec, execEncDiv]
  simp only [divMod62_low ha, s.regs.setDigit_of_lt h, zero, wide, Regs.divStep]

theorem coreTurn_encDiv {r : Regs} (ph : r.ph = Config.phEncDiv) (h : r.dcnt.toNat < 43) {a : Nat}
    (ha : a = r.acc.toNat % 2 ^ 256) : CoreTurn r (r.divStep a h) := by
  refine coreTurn_of_exec (i := .encDiv) (by rw [ph]; rfl) ?_
  rintro s rfl
  exact exec_encDiv h ha

theorem digitCount_pos (v : Nat) : 1 ≤ digitCount v := by
  rw [digitCount, digitsOf, remainders_succ, List.length_cons]
  omega

theorem digitCount_le (v : Nat) : digitCount v ≤ 43 := remainders_length_le 43 v

/-- The divide loop: it appends the digits of `ACC` to `DS` (R142, R164 to R166). -/
theorem CoreRun.divide {a : Nat} (ha : a < 2 ^ 256) {r : Regs} (ph : r.ph = Config.phEncDiv)
    (status : r.status = statusInFlight) (acc : r.acc = BitVec.ofNat 257 a)
    (room : r.dcnt.toNat + digitCount a ≤ 43) :
    ∃ ds dcnt, dcnt.toNat = r.dcnt.toNat + digitCount a ∧
      ds.toList.take dcnt.toNat = r.ds.toList.take r.dcnt.toNat ++ (digitsOf a).map (BitVec.ofNat 6) ∧
      CoreRun (digitCount a) r (r.divided ds dcnt) := by
  induction a using Nat.strong_induction_on generalizing r with
  | _ a ih =>
    have pos := digitCount_pos a
    have h : r.dcnt.toNat < 43 := by omega
    have next := Safety.count_succ (x := r.dcnt) (by omega)
    have low : a = r.acc.toNat % 2 ^ 256 := by rw [acc, ofNat257_of_lt ha, Nat.mod_eq_of_lt ha]
    have turn := coreTurn_encDiv ph h low
    have busy : r.ph ≠ Config.phIdle := by rw [ph]; decide
    have stored := dsTake_set r.ds h (BitVec.ofNat 6 (a % 62))
    by_cases q : a / 62 = 0
    · have digits : digitsOf a = [a % 62] := by rw [digitsOf_step ha, if_pos q]
      have one : digitCount a = 1 := by rw [digitCount, digits, List.length_singleton]
      refine ⟨r.ds.set r.dcnt.toNat (BitVec.ofNat 6 (a % 62)), r.dcnt + 1#6, by rw [next, one], ?_, ?_⟩
      · rw [next, stored, digits, List.map_singleton]
      · rw [one, ← r.divStep_last h q]
        exact .one busy status turn
    · have digits : digitsOf a = a % 62 :: digitsOf (a / 62) := by rw [digitsOf_step ha, if_neg q]
      have count : digitCount a = digitCount (a / 62) + 1 := by rw [digitCount, digits, List.length_cons, digitCount]
      have less : a / 62 < a := by omega
      obtain ⟨ds, dcnt, hdcnt, hds, run⟩ := ih (a / 62) less (by omega) (r := r.divStep a h)
        (by rw [Regs.divStep, if_neg q, ph]) status rfl (by simp only [Regs.divStep]; omega)
      simp only [Regs.divStep, next] at hdcnt hds
      refine ⟨ds, dcnt, by omega, ?_, count ▸ .turn busy status turn run⟩
      rw [hds, stored, digits, List.append_assoc, List.map_cons, List.singleton_append]

/-! ### `ENC_REV` -/

/-- The registers after one `ENC_REV` (R168). -/
def Regs.revStep (r : Regs) (hd : r.dcnt.toNat ≤ 43) (hi : r.idx.toNat < r.dcnt.toNat) : Regs :=
  { r with
    c := r.c.set r.idx.toNat (alpha (r.ds[r.dcnt.toNat - 1 - r.idx.toNat]'(by omega))) (by omega)
    idx := r.idx + 1#6
    clen := if r.idx.toNat + 1 = r.dcnt.toNat then r.dcnt.setWidth 8 else r.clen
    status := if r.idx.toNat + 1 = r.dcnt.toNat then statusSuccess else r.status
    ph := if r.idx.toNat + 1 = r.dcnt.toNat then Config.phIdle else r.ph }

theorem exec_encRev {s : State} (hd : s.regs.dcnt.toNat ≤ 43) (hi : s.regs.idx.toNat < s.regs.dcnt.toNat) :
    exec .encRev s = .next (s.setRegs (s.regs.revStep hd hi)) := by
  rw [exec, execEncRev]
  simp only [if_pos hi, s.regs.digitAt_of_lt (by omega : s.regs.dcnt.toNat - 1 - s.regs.idx.toNat < 43),
    s.regs.setChar_of_lt (by omega : s.regs.idx.toNat < 43)]
  by_cases last : s.regs.idx.toNat + 1 = s.regs.dcnt.toNat
  · simp only [if_pos last, Regs.revStep, Regs.complete]
  · simp only [if_neg last, Regs.revStep]

theorem coreTurn_encRev {r : Regs} (ph : r.ph = Config.phEncRev) (hd : r.dcnt.toNat ≤ 43)
    (hi : r.idx.toNat < r.dcnt.toNat) : CoreTurn r (r.revStep hd hi) := by
  refine coreTurn_of_exec (i := .encRev) (by rw [ph]; rfl) ?_
  rintro s rfl
  exact exec_encRev hd hi

/-- The characters of the valid digits of `DS`, most significant first (R164). -/
def Regs.digitChars (r : Regs) : List Byte := (r.ds.toList.take r.dcnt.toNat).reverse.map alpha

theorem Regs.digitChars_length {r : Regs} (h : r.dcnt.toNat ≤ 43) : r.digitChars.length = r.dcnt.toNat := by
  simp [Regs.digitChars, h]

theorem Regs.digitChars_getElem {r : Regs} (hd : r.dcnt.toNat ≤ 43) {j : Nat} (hj : j < r.dcnt.toNat) :
    r.digitChars[j]'(by rwa [r.digitChars_length hd]) = alpha (r.ds[r.dcnt.toNat - 1 - j]'(by omega)) := by
  simp [Regs.digitChars, hd]

/-- The registers when the reversal loop has ended: the characters that were missing from `IDX` on are written, and the
operation has completed (R168). -/
def Regs.reversed (r : Regs) : Regs :=
  { r with
    c := writeFrom r.c r.idx.toNat (r.digitChars.drop r.idx.toNat)
    idx := r.dcnt
    clen := r.dcnt.setWidth 8 }.complete

/-- The character written at `IDX` is the next of those that are missing. -/
theorem Regs.writeFrom_digitChars {r : Regs} (hd : r.dcnt.toNat ≤ 43) (hi : r.idx.toNat < r.dcnt.toNat) :
    writeFrom (r.revStep hd hi).c (r.idx.toNat + 1) (r.digitChars.drop (r.idx.toNat + 1)) =
      writeFrom r.c r.idx.toNat (r.digitChars.drop r.idx.toNat) := by
  have more : r.idx.toNat < r.digitChars.length := by rwa [r.digitChars_length hd]
  rw [List.drop_eq_getElem_cons more, r.digitChars_getElem hd hi]
  exact writeFrom_set r.c (by omega) _ _

/-- The last step of the reversal loop ends it. -/
theorem Regs.revStep_last {r : Regs} (hd : r.dcnt.toNat ≤ 43) (hi : r.idx.toNat < r.dcnt.toNat)
    (last : r.idx.toNat + 1 = r.dcnt.toNat) : r.revStep hd hi = r.reversed := by
  have none : r.digitChars.drop (r.idx.toNat + 1) = [] :=
    List.drop_eq_nil_of_le (by rw [r.digitChars_length hd, last])
  have chars := r.writeFrom_digitChars hd hi
  rw [none, writeFrom_nil] at chars
  have idx : r.idx + 1#6 = r.dcnt := BitVec.eq_of_toNat_eq (by rw [Safety.count_succ (by omega), last])
  rw [Regs.reversed, ← chars, ← idx]
  simp only [Regs.revStep, if_pos last, Regs.complete, idx]

/-- A step of the reversal loop does not change what the loop ends in. -/
theorem Regs.reversed_revStep {r : Regs} (hd : r.dcnt.toNat ≤ 43) (hi : r.idx.toNat < r.dcnt.toNat) :
    (r.revStep hd hi).reversed = r.reversed := by
  have next : (r.revStep hd hi).idx.toNat = r.idx.toNat + 1 := Safety.count_succ (by omega)
  have chars := r.writeFrom_digitChars hd hi
  rw [Regs.reversed, next]
  rw [Regs.reversed, ← chars]
  rfl

/-- The reversal loop (R168). -/
theorem CoreRun.reverse {m : Nat} {r : Regs} (ph : r.ph = Config.phEncRev) (status : r.status = statusInFlight)
    (hd : r.dcnt.toNat ≤ 43) (left : r.idx.toNat + (m + 1) = r.dcnt.toNat) : CoreRun (m + 1) r r.reversed := by
  induction m generalizing r with
  | zero =>
    have hi : r.idx.toNat < r.dcnt.toNat := by omega
    exact r.revStep_last hd hi left ▸ CoreRun.one (by rw [ph]; decide) status (coreTurn_encRev ph hd hi)
  | succ m ih =>
    have hi : r.idx.toNat < r.dcnt.toNat := by omega
    have more : r.idx.toNat + 1 ≠ r.dcnt.toNat := by omega
    have next : (r.revStep hd hi).idx.toNat = r.idx.toNat + 1 := Safety.count_succ (by omega)
    have run : CoreRun (m + 1) (r.revStep hd hi) (r.revStep hd hi).reversed :=
      ih ((if_neg more).trans ph) ((if_neg more).trans status) hd
        (by rw [next, Nat.add_assoc, Nat.add_comm 1]; exact left)
    exact r.reversed_revStep hd hi ▸ .turn (by rw [ph]; decide) status (coreTurn_encRev ph hd hi) run

/-! ### The whole encode -/

theorem encodeFn_length (v : Nat) : (encodeFn v).length = digitCount v := by
  rw [encodeFn, List.length_map, List.length_reverse, digitCount]

theorem alpha_digits_eq_encodeFn (v : Nat) :
    (((digitsOf v).map (BitVec.ofNat 6)).reverse).map alpha = encodeFn v := by
  rw [← List.map_reverse, List.map_map]
  rfl

/-- R169, R128: after the load the core writes the string of the operand in `2 * n(v)` turns; what the host then sees is
the result of R123. -/
theorem CoreRun.encode {r : Regs} (h : r.blen.toNat ≤ 32) :
    ∃ q : Regs, CoreRun (2 * digitCount r.encOperand) r.loadEnc q ∧ q.view = r.wholeEnc.view ∧
      q.ph = Config.phIdle := by
  have lt : r.encOperand < 2 ^ 256 := lt_of_lt_of_le (bytesToNat_lt r.b _ h) (pow256_le h)
  have le := digitCount_le r.encOperand
  have pos := digitCount_pos r.encOperand
  obtain ⟨ds, dcnt, hdcnt, hds, divide⟩ := CoreRun.divide lt (r := r.loadEnc) rfl rfl rfl (by simpa using le)
  rw [Regs.loadEnc_dcnt, BitVec.toNat_ofNat, Nat.zero_mod, Nat.zero_add] at hdcnt
  rw [Regs.loadEnc_dcnt, BitVec.toNat_ofNat, Nat.zero_mod, List.take_zero, List.nil_append] at hds
  obtain ⟨m, hm⟩ : ∃ m, digitCount r.encOperand = m + 1 := ⟨digitCount r.encOperand - 1, by omega⟩
  have reverse := CoreRun.reverse (m := m)
    (r := r.loadEnc.divided ds dcnt) rfl rfl (hdcnt ▸ le)
    ((Nat.zero_add _).trans (hdcnt.trans hm).symm)
  rw [← hm] at reverse
  refine ⟨_, two_mul (digitCount r.encOperand) ▸ divide.trans reverse, ?_, rfl⟩
  have chars : (ds.toList.take dcnt.toNat).reverse.map alpha = encodeFn r.encOperand := by
    rw [hds, alpha_digits_eq_encodeFn]
  have count : dcnt.setWidth 8 = BitVec.ofNat 8 (encodeFn r.encOperand).length := by
    apply BitVec.eq_of_toNat_eq
    rw [BitVec.toNat_setWidth, BitVec.toNat_ofNat, hdcnt, encodeFn_length]
  simp [Regs.view, Regs.reversed, Regs.divided, Regs.digitChars, Regs.wholeEnc, not_lt.mpr h, chars, count,
    writeString_eq, Regs.complete]

end Sys2Proof.Machine
end

section
/-! SUPPORT. What the core steps of a decode compute (43_decode.md R195, R198): one step, the fold, the whole. -/

namespace Sys2Proof.Machine

/-! ### The value of a string (R190) -/

/-- One more character on the right. -/
theorem digitsOfString_concat (s : List Byte) (ch : Byte) :
    digitsOfString (s ++ [ch]) = (digitsOfString s).bind fun ds => (digitOf ch).map fun d => ds ++ [d] := by
  simp only [digitsOfString, List.mapM_append, List.mapM_cons, List.mapM_nil]
  cases s.mapM digitOf <;> cases digitOf ch <;> rfl

theorem digitsOfString_concat_eq_some {s : List Byte} {ch : Byte} {ds : List Digit}
    (h : digitsOfString (s ++ [ch]) = some ds) :
    ∃ ds' d, digitsOfString s = some ds' ∧ digitOf ch = some d ∧ ds = ds' ++ [d] := by
  rw [digitsOfString_concat] at h
  obtain ⟨ds', hs, h⟩ := Option.bind_eq_some_iff.mp h
  obtain ⟨d, hd, rfl⟩ := Option.map_eq_some_iff.mp h
  exact ⟨ds', d, hs, hd, rfl⟩

theorem stringValue_concat (ds : List Digit) (d : Digit) :
    stringValue (ds ++ [d]) = 62 * stringValue ds + d.toNat := by
  rw [stringValue, List.map_append, List.map_singleton, ofPlaces_concat, ← stringValue]

/-- R144: `n` characters have a value below `62 ^ n`. -/
theorem stringValue_lt {s : List Byte} {ds : List Digit} (h : digitsOfString s = some ds) :
    stringValue ds < 62 ^ s.length := by
  induction s using List.reverseRecOn generalizing ds with
  | nil =>
    cases h
    simp [stringValue]
  | append_singleton s ch ih =>
    obtain ⟨ds, d, hs, hd, rfl⟩ := digitsOfString_concat_eq_some h
    have := ih hs
    have := digitOf_le hd
    rw [stringValue_concat, List.length_append, List.length_singleton, pow_succ]
    omega

theorem decodeFn_eq_ok {s : List Byte} {v : Nat} (h : decodeFn s = .ok v) :
    ∃ ds, digitsOfString s = some ds ∧ stringValue ds = v ∧ v < 2 ^ 256 := by
  rw [decodeFn] at h
  split at h
  · cases h
  · next ds hs =>
    split at h
    · cases h
    · next lt =>
      cases h
      exact ⟨ds, hs, rfl, not_le.mp lt⟩

/-! ### `DEC_MAC` -/

theorem exec_decMac_of_digit {s : State} (h : s.regs.idx.toNat < 43) {d : Digit}
    (hd : digitOf s.regs.c[s.regs.idx.toNat] = some d) :
    exec .decMac s = .next (s.setRegs { s.regs with
      acc := mulAdd62 s.regs.acc d
      idx := s.regs.idx + 1#6
      ph := if s.regs.idx.toNat + 1 = s.regs.clen.toNat then Config.phDecChk else s.regs.ph }) := by
  rw [exec, execDecMac]
  simp only [s.regs.charAt_of_lt h, hd]

/-- The registers of a decode when the first `k` characters, with the value `v`, have been folded (R195). -/
def Regs.folded (r : Regs) (k v : Nat) : Regs :=
  { r.startDec with
    acc := BitVec.ofNat 257 v
    idx := BitVec.ofNat 6 k
    ph := if k = r.clen.toNat then Config.phDecChk else Config.phDecMac }

theorem Regs.folded_ph_of_lt {r : Regs} {k v : Nat} (h : k < r.clen.toNat) :
    (r.folded k v).ph = Config.phDecMac := if_neg h.ne

theorem Regs.folded_ph_last (r : Regs) (v : Nat) : (r.folded r.clen.toNat v).ph = Config.phDecChk := if_pos rfl

theorem Regs.folded_zero (r : Regs) : r.folded 0 0 = r.startDec := by
  have zero : 0 = r.clen.toNat ↔ r.clen = 0#8 := by
    rw [← BitVec.toNat_inj, eq_comm]
    rfl
  simp only [Regs.folded, zero, Regs.startDec]

/-- The fold of one more character. -/
theorem Regs.coreTurn_folded {r : Regs} {k v : Nat} {d : Digit} (more : k < r.clen.toNat) (len : r.clen.toNat ≤ 43)
    (hd : digitOf (r.c[k]'(by omega)) = some d) (hv : v < 62 ^ k) :
    CoreTurn (r.folded k v) (r.folded (k + 1) (62 * v + d.toNat)) := by
  have idx : (r.folded k v).idx.toNat = k := by
    rw [Regs.folded, BitVec.toNat_ofNat, Nat.mod_eq_of_lt (by omega)]
  have hv42 : v < 62 ^ 42 := lt_of_lt_of_le hv (pow62_le (by omega))
  have acc : (r.folded k v).acc.toNat = v := ofNat257_of_lt (by omega)
  have ph := Regs.folded_ph_of_lt (v := v) more
  have fold : mulAdd62 (r.folded k v).acc d = BitVec.ofNat 257 (62 * v + d.toNat) := by
    rw [mulAdd62, acc, if_pos ⟨hv42, digitOf_le hd⟩]
  have count : (r.folded k v).idx + 1#6 = BitVec.ofNat 6 (k + 1) := by rw [Regs.folded, ← BitVec.ofNat_add]
  refine coreTurn_of_exec (i := .decMac) (by rw [ph]; rfl) ?_
  intro s hs
  have step := exec_decMac_of_digit (s := s) (d := d) (by rw [hs, idx]; omega) (by
    simp only [hs, idx]
    exact hd)
  rw [step, hs]
  simp only [fold, count, idx, ph]
  rfl

/-- The fold of the first `k` characters, when each of them has a digit (R195). -/
theorem CoreRun.fold {r : Regs} (len : r.clen.toNat ≤ 43) {k : Nat} (hk : k ≤ r.clen.toNat) {ds : List Digit}
    (h : digitsOfString (r.decOperand.take k) = some ds) :
    CoreRun k r.startDec (r.folded k (stringValue ds)) := by
  induction k generalizing ds with
  | zero =>
    cases h
    exact r.folded_zero ▸ .done _
  | succ k ih =>
    have lt : k < r.decOperand.length := by rw [Regs.decOperand_length len]; omega
    have ch : r.decOperand[k] = r.c[k]'(by omega) := by simp [Regs.decOperand]
    rw [List.take_succ_eq_append_getElem lt] at h
    obtain ⟨ds, d, hs, hd, rfl⟩ := digitsOfString_concat_eq_some h
    have value := stringValue_lt hs
    rw [List.length_take_of_le (by omega)] at value
    have busy : (r.folded k (stringValue ds)).ph ≠ Config.phIdle := by
      rw [Regs.folded_ph_of_lt hk]
      decide
    rw [stringValue_concat]
    exact (ih (by omega) hs).trans (.one busy rfl (Regs.coreTurn_folded hk len (ch ▸ hd) value))

/-! ### `DEC_CHK` and the whole decode -/

/-- Bit 256 of `ACC` says whether the value is `2^256` or more (R147, R197). -/
theorem getLsbD_256 (a : Accum) : a.getLsbD 256 = true ↔ 2 ^ 256 ≤ a.toNat := by
  rw [← BitVec.msb_eq_getLsbD_last, BitVec.msb_eq_decide, decide_eq_true_iff]

theorem exec_decChk_of_fits {s : State} (h : s.regs.acc.toNat < 2 ^ 256) :
    exec .decChk s =
      .next (s.setRegs { s.regs with b := natToBytes32 s.regs.acc.toNat, blen := 32#8 }.complete) := by
  have bit : s.regs.acc.getLsbD 256 ≠ true := fun e => absurd ((getLsbD_256 _).mp e) (not_le.mpr h)
  rw [exec, execDecChk, if_neg bit, accToBytes_eq]

/-- R199, R128: after the start the core writes the bytes of a text with a value in `CLEN + 1` turns; what the host then
sees is the result of R124. -/
theorem CoreRun.decode {r : Regs} (len : r.clen.toNat ≤ 43) {v : Nat} (h : decodeFn r.decOperand = .ok v) :
    ∃ q : Regs, CoreRun (r.clen.toNat + 1) r.startDec q ∧ q.view = r.wholeDec.view ∧ q.ph = Config.phIdle := by
  obtain ⟨ds, hs, rfl, lt⟩ := decodeFn_eq_ok h
  have fold : CoreRun r.clen.toNat r.startDec (r.folded r.clen.toNat (stringValue ds)) := by
    refine CoreRun.fold len le_rfl ?_
    rwa [List.take_of_length_le (Regs.decOperand_length len).le]
  have ph := r.folded_ph_last (stringValue ds)
  have acc : (r.folded r.clen.toNat (stringValue ds)).acc.toNat = stringValue ds := ofNat257_of_lt lt
  have check := coreTurn_of_exec (i := .decChk) (by rw [ph]; rfl) fun s hs =>
    hs ▸ exec_decChk_of_fits (by rw [hs, acc]; exact lt)
  refine ⟨_, fold.trans (.one (by rw [ph]; decide) rfl check), ?_, rfl⟩
  rw [Regs.wholeDec, if_neg (not_lt.mpr len), h, acc]
  rfl

end Sys2Proof.Machine
end

section
/-! SUPPORT. The library calls of 30_encoding.md R101 and their commands: `ENC; WAIT` and `DEC; WAIT`. -/

namespace Sys2Proof.Machine

theorem encodeBytes_eq (data : List Byte) : encodeBytes data =
    (Pseudo.setB data).expand ++
      (Pseudo.enc.expand ++ (Pseudo.wait.expand ++ (Pseudo.getC.expand ++ [.test]))) := rfl

theorem decodeBytes_eq (text : List Byte) : decodeBytes text =
    (Pseudo.setC text).expand ++
      (Pseudo.dec.expand ++ (Pseudo.wait.expand ++ (Pseudo.getB.expand ++ [.test]))) := rfl

/-- What the host sees after an `ENC` of at most 32 bytes (R123). -/
theorem Regs.wholeEnc_view {r : Regs} (h : r.blen.toNat ≤ 32) :
    r.wholeEnc.view = {
      b := r.b, blen := r.blen, clen := BitVec.ofNat 8 (encodeFn r.encOperand).length, status := statusSuccess
      c := writeString r.c (encodeFn r.encOperand) } := by
  rw [Regs.wholeEnc, if_neg (not_lt.mpr h)]
  rfl

/-- What the host sees after a `DEC` of at most 43 characters with a value (R124). -/
theorem Regs.wholeDec_view {r : Regs} (len : r.clen.toNat ≤ 43) {v : Nat} (h : decodeFn r.decOperand = .ok v) :
    r.wholeDec.view = {
      b := natToBytes32 v, blen := 32#8, clen := r.clen, status := statusSuccess, c := r.c } := by
  rw [Regs.wholeDec, if_neg (not_lt.mpr len), h]
  simp only [Regs.view, Regs.complete]

/-- A command that goes in flight and then completes with success, under `WAIT`. -/
theorem run_command {r u q : Regs} {n : Nat} {op : Byte} (idle : r.ph = Config.phIdle) (accept : r.accept op = u)
    (run : CoreRun n u q) (status : q.status = statusSuccess) (rest : List Move) (replies : List Byte) :
    ∃ k earlier, Host.Core.run core k ⟨r, lineWr 0x22 op :: .poll :: rest, replies⟩ =
      .next ⟨q, rest, statusSuccess :: earlier⟩ := by
  have first : step ⟨r, lineWr 0x22 op :: .poll :: rest, replies⟩ = .next ⟨u, .poll :: rest, replies⟩ := by
    rw [lineWr, step_encodeWr idle, Regs.idleWrite_cmd, accept]
  obtain ⟨k, earlier, wait⟩ := run.poll (by rw [status]; decide) rest replies
  rw [status] at wait
  exact ⟨_, earlier, run_cons first wait⟩

/-- `ENC; WAIT` at rest, for at most 32 bytes. -/
theorem run_enc {r : Regs} (idle : r.ph = Config.phIdle) (h : r.blen.toNat ≤ 32) (rest : List Move)
    (replies : List Byte) :
    ∃ k earlier q, Host.Core.run core k ⟨r, Pseudo.enc.expand ++ (Pseudo.wait.expand ++ rest), replies⟩ =
      .next ⟨q, rest, statusSuccess :: earlier⟩ ∧ q.view = r.wholeEnc.view ∧ q.ph = Config.phIdle := by
  obtain ⟨q, run, view, ph⟩ := CoreRun.encode h
  have status : q.status = statusSuccess := congrArg HostView.status (view.trans (Regs.wholeEnc_view h))
  obtain ⟨k, earlier, e⟩ := run_command (op := Config.opEnc) idle (if_neg (not_lt.mpr h)) run status rest replies
  exact ⟨k, earlier, q, e, view, ph⟩

/-- `DEC; WAIT` at rest, for a string of at most 43 characters with a value. -/
theorem run_dec {r : Regs} (idle : r.ph = Config.phIdle) (len : r.clen.toNat ≤ 43) {v : Nat}
    (h : decodeFn r.decOperand = .ok v) (rest : List Move) (replies : List Byte) :
    ∃ k earlier q, Host.Core.run core k ⟨r, Pseudo.dec.expand ++ (Pseudo.wait.expand ++ rest), replies⟩ =
      .next ⟨q, rest, statusSuccess :: earlier⟩ ∧ q.view = r.wholeDec.view ∧ q.ph = Config.phIdle := by
  obtain ⟨q, run, view, ph⟩ := CoreRun.decode len h
  have status : q.status = statusSuccess := congrArg HostView.status (view.trans (Regs.wholeDec_view len h))
  obtain ⟨k, earlier, e⟩ := run_command (op := Config.opDec) idle (if_neg (not_lt.mpr len)) run status rest replies
  exact ⟨k, earlier, q, e, view, ph⟩

/-- The string that an encode leaves in `C` (R169). -/
theorem decOperand_of_wholeEnc {r q : Regs} (h : r.blen.toNat ≤ 32) (view : q.view = r.wholeEnc.view) :
    q.clen = BitVec.ofNat 8 (encodeFn r.encOperand).length ∧ q.clen.toNat ≤ 43 ∧
      q.decOperand = encodeFn r.encOperand := by
  rw [Regs.wholeEnc_view h] at view
  have clen : q.clen = BitVec.ofNat 8 (encodeFn r.encOperand).length := congrArg HostView.clen view
  have c : q.c = writeString r.c (encodeFn r.encOperand) := congrArg HostView.c view
  have le : (encodeFn r.encOperand).length ≤ 43 := (encodeFn_length _).le.trans (digitCount_le _)
  have count : q.clen.toNat = (encodeFn r.encOperand).length := by rw [clen, length_toNat (by omega)]
  refine ⟨clen, count.le.trans le, ?_⟩
  rw [Regs.decOperand, count, c, writeString_eq, take_writeFrom_zero _ le]

end Sys2Proof.Machine
end

section
/-! SUPPORT. The statements about 30_encoding.md, its encodings, functions and scripts, settled. -/

namespace Sys2Proof.Proofs

open Sys2Proof.Machine

/-- Settles O12: each format is read backwards, and a transaction word is its three fields. -/
theorem decodeEncodeAgree : Obligations.DecodeEncodeAgree :=
  ⟨decode_encode, fun _ _ => encode_of_decode, fun _ _ => hostInstr_scriptWord, hostInstr_wf⟩

/-- Settles O58: `SETB`, `ENC; WAIT`, `GETC` and the test, one after another. -/
theorem encodeBytesScript : Obligations.EncodeBytesScript := by
  rintro ⟨r, script, replies⟩ data text idle len hscript htext
  obtain rfl : script = _ := hscript.trans (encodeBytes_eq data)
  have short : (r.withData data).blen.toNat ≤ 32 := (r.withData_blen len).le.trans len
  obtain ⟨k, earlier, q, enc, view, ph⟩ :=
    run_enc ((r.withData_ph data).trans idle) short (Pseudo.getC.expand ++ [.test]) replies
  have status : q.status = statusSuccess := congrArg HostView.status (view.trans (Regs.wholeEnc_view short))
  obtain ⟨clen, clen_le, string⟩ := decOperand_of_wholeEnc short view
  rw [r.encOperand_withData len, ← htext] at clen string
  have getC := run_getC ph clen_le [.test] (statusSuccess :: earlier)
  have test := run_one (step_test_success status [] (q.decOperand.reverse ++ q.clen :: statusSuccess :: earlier))
  refine ⟨_, _, run_trans (run_setB idle len _ replies) (run_trans enc (run_trans getC test)), rfl, ph, ?_, string⟩
  rw [string, clen]
  simp [List.take_append, statusSuccess]

/-- Settles O59: `SETC`, `DEC; WAIT`, `GETB` and the test, one after another. -/
theorem decodeBytesScript : Obligations.DecodeBytesScript := by
  rintro ⟨r, script, replies⟩ text v idle len hscript value
  obtain rfl : script = _ := hscript.trans (decodeBytes_eq text)
  have short : (r.withText text).clen.toNat ≤ 43 := (r.withText_clen len).le.trans len
  rw [← r.decOperand_withText len] at value
  obtain ⟨k, earlier, q, dec, view, ph⟩ :=
    run_dec ((r.withText_ph text).trans idle) short value (Pseudo.getB.expand ++ [.test]) replies
  rw [Regs.wholeDec_view short value] at view
  have status : q.status = statusSuccess := congrArg HostView.status view
  have bytes : q.b = natToBytes32 v := congrArg HostView.b view
  have getB := run_getB ph [.test] (statusSuccess :: earlier)
  have test := run_one (step_test_success status [] (q.b.toList.reverse ++ statusSuccess :: earlier))
  refine ⟨_, _, run_trans (run_setC idle len _ replies) (run_trans dec (run_trans getB test)), rfl, ph, ?_⟩
  rw [← bytes]
  simp [List.take_append, statusSuccess]

/-- Settles O11: a word is its three fields. -/
theorem transactionWords : Obligations.TransactionWords := by
  refine ⟨fun a v => ⟨encodeWr_toNat a v, encodeRd_toNat a, ?_, ?_⟩, fun w => ?_⟩
  · exact congrArg Except.ok (decodeTx_encodeWr a v)
  · have read : decodeTx (readWord a v) = .rd a := by simp [decodeTx]
    exact congrArg Except.ok read
  · by_cases h : txIsWrite w = true
    · exact ⟨txOffset w, txValue w, .inl (congrArg Except.ok (decodeTx_of_write h))⟩
    · exact ⟨txOffset w, txValue w, .inr (congrArg Except.ok (decodeTx_of_read (by simpa using h)))⟩

/-- Settles O10: the words are evaluated, and a code that is neither command is reserved. -/
theorem decodeExamples : Obligations.DecodeExamples := by
  refine ⟨rfl, rfl, fun op h₁ h₂ => ?_, rfl, rfl, rfl, rfl, rfl, rfl, rfl, rfl, rfl, rfl, rfl, rfl⟩
  rw [decode, decodeCommand, if_neg h₁, if_neg h₂]

/-- Settles O13, digit by digit. -/
theorem alphabetOrder : Obligations.AlphabetOrder := by
  unfold Obligations.AlphabetOrder
  decide

/-- Settles O14: `ALPHA` and `DIGIT` invert each other, and the codes without a digit are counted. -/
theorem digitInvertsAlpha : Obligations.DigitInvertsAlpha :=
  ⟨fun _ => digitOf_alpha, fun _ _ h => ⟨digitOf_le h, alpha_digitOf h⟩, rfl⟩

/-- Settles O18: the bytes are the places of the value to the base 256. -/
theorem bytesRendering : Obligations.BytesRendering :=
  ⟨fun v _ h _ => natToBytes32_getElem_toNat v h, fun _ => bytesToNat_natToBytes32,
    fun a _ h _ => natToBytes32_acc a h⟩

/-- Settles O5: the core's turn runs what `PH` decodes to. -/
theorem stepRunsCoreStep : Obligations.StepRunsCoreStep := by
  refine ⟨fun s i d => ⟨fun rest h => ?_, fun h => ?_⟩, fun s idle => ⟨fun rest h => ?_, fun h => ?_⟩⟩
  · rw [step_core h, coreTurn_of_decode (s := ⟨s.regs, rest, s.replies⟩) d, Turn.perform]
  · rw [step_of_script_nil h, coreTurn_of_decode d, Turn.perform]
  · rw [step_core h, coreTurn_of_idle (s := ⟨s.regs, rest, s.replies⟩) idle, Turn.perform]
  · rw [step_of_script_nil h, coreTurn_of_idle idle, Turn.perform]

/-- Settles O7. -/
theorem pollReadsStatus : Obligations.PollReadsStatus := fun _ _ h => step_poll h

end Sys2Proof.Proofs
end

section
/-! SUPPORT. Runs of the core taken through a script: with no move left (40_commands.md R122), and with host accesses in
between, which in flight reach nothing of the block (R129; 20_memory.md R64). -/

namespace Sys2Proof.Machine

/-- With no move left the machine takes the turns of the core one after another (log entry 2). -/
theorem CoreRun.run_nil {n : Nat} {r r' : Regs} (h : CoreRun n r r') (replies : List Byte) :
    Host.Core.run core n ⟨r, [], replies⟩ = .next ⟨r', [], replies⟩ := by
  induction h with
  | done r => rfl
  | turn busy status first _ ih => exact run_cons ((step_of_script_nil rfl).trans (first [] replies)) ih

/-- While turns are left the operation is in flight. -/
theorem CoreRun.in_flight {n : Nat} {r r' : Regs} (h : CoreRun n r r') (left : 0 < n) :
    r.ph ≠ Config.phIdle ∧ r.status = statusInFlight := by
  cases h with
  | done => omega
  | turn busy status => exact ⟨busy, status⟩

/-- The byte a move returns to the host while an operation is in flight (R64): `STATUS` at 0x23, 0x00 elsewhere. -/
def Move.inFlightReply : Move → Option Byte
  | .access w =>
    if txIsWrite w then none else some (if txOffset w = Config.statusOffset then statusInFlight else 0x00#8)
  | _ => none

/-- In flight a host line changes no register, and a read replies as R64 says. -/
theorem step_access_busy {r : Regs} (busy : r.ph ≠ Config.phIdle) (status : r.status = statusInFlight) (w : TxWord)
    (rest : List Move) (replies : List Byte) :
    step ⟨r, .access w :: rest, replies⟩ =
      .next ⟨r, rest, (Move.access w).inFlightReply.toList ++ replies⟩ := by
  rw [step_access rfl]
  rcases hostInstr_cases w with ⟨hw, -, -, i⟩ | ⟨hw, -, -, i⟩ | ⟨hw, -, i⟩ | ⟨hw, i⟩ <;>
    rw [i, Move.inFlightReply, hw]
  · exact exec_enc_busy busy
  · exact exec_dec_busy busy
  · exact exec_wr_busy busy _ _
  · rw [exec_rd, Regs.hostRead_busy busy, status]
    rfl

/-- When the last move is a turn of the core, a turn of the core is still to come after an access. -/
theorem core_mem_of_getLast? {w : TxWord} {rest : List Move}
    (last : ∀ m, (Move.access w :: rest).getLast? = some m → m = .core) : Move.core ∈ rest := by
  have core : rest.getLast?.getD (.access w) = .core := last _ List.getLast?_cons
  cases h : rest.getLast? with
  | none =>
    rw [h] at core
    cases core
  | some m =>
    rw [h] at core
    exact List.mem_of_getLast? (h.trans (congrArg some core))

/-- R129: whatever accesses stand between the turns of the core, its run ends in the same registers; every access
before the last turn finds the operation in flight. -/
theorem CoreRun.interleaved {n : Nat} {r r' : Regs} (h : CoreRun n r r') {moves : List Move}
    (kinds : ∀ m ∈ moves, m = .core ∨ ∃ w, m = .access w) (last : ∀ m, moves.getLast? = some m → m = .core)
    (count : moves.count .core = n) (replies : List Byte) :
    Host.Core.run core moves.length ⟨r, moves, replies⟩ =
      .next ⟨r', [], (moves.filterMap Move.inFlightReply).reverse ++ replies⟩ := by
  induction moves generalizing n r replies with
  | nil =>
    obtain rfl : 0 = n := count
    cases h
    rfl
  | cons m rest ih =>
    have kindsRest : ∀ m ∈ rest, m = .core ∨ ∃ w, m = .access w :=
      fun m hm => kinds m (List.mem_cons_of_mem _ hm)
    have lastRest : ∀ m, rest.getLast? = some m → m = .core := by
      intro x hx
      exact last x (by rw [List.getLast?_cons, hx, Option.getD_some])
    rcases kinds m List.mem_cons_self with rfl | ⟨w, rfl⟩
    · rw [List.count_cons_self] at count
      subst count
      cases h with
      | turn _ _ first later =>
        exact run_cons ((step_core rfl).trans (first rest replies)) (ih later kindsRest lastRest rfl replies)
    · rw [List.count_cons_of_ne (by simp)] at count
      have left : 0 < n := count ▸ List.count_pos_iff.mpr (core_mem_of_getLast? last)
      obtain ⟨busy, status⟩ := h.in_flight left
      refine run_cons (step_access_busy busy status w rest replies) ?_
      rw [ih h kindsRest lastRest count]
      cases reply : (Move.access w).inFlightReply with
      | none => rw [List.filterMap_cons_none reply, Option.toList_none, List.nil_append]
      | some v => rw [List.filterMap_cons_some reply, List.reverse_cons, List.append_assoc, Option.toList_some]

end Sys2Proof.Machine
end

section
/-! SUPPORT. The steps of a decode in all their outcomes (43_decode.md R195, R198). -/

namespace Sys2Proof.Machine

/-- A character that has no digit ends the decode (R195, R223). -/
theorem coreTurn_decMac_of_no_digit {r : Regs} (ph : r.ph = Config.phDecMac) (h : r.idx.toNat < 43)
    (bad : digitOf r.c[r.idx.toNat] = none) : CoreTurn r (r.raise .invalidCharacter) := by
  refine coreTurn_of_exec (i := .decMac) (by rw [ph]; rfl) ?_
  rintro s rfl
  rw [exec, execDecMac]
  simp only [s.regs.charAt_of_lt h, bad]

/-- The registers after one `DEC_MAC` on a character with the digit `d` (R195). -/
def Regs.macStep (r : Regs) (d : Digit) : Regs :=
  { r with
    acc := mulAdd62 r.acc d
    idx := r.idx + 1#6
    ph := if r.idx.toNat + 1 = r.clen.toNat then Config.phDecChk else r.ph }

theorem coreTurn_decMac_of_digit {r : Regs} (ph : r.ph = Config.phDecMac) (h : r.idx.toNat < 43) {d : Digit}
    (hd : digitOf r.c[r.idx.toNat] = some d) : CoreTurn r (r.macStep d) := by
  refine coreTurn_of_exec (i := .decMac) (by rw [ph]; rfl) ?_
  rintro s rfl
  exact exec_decMac_of_digit h hd

/-- The registers after `DEC_CHK` (R198). -/
def Regs.checked (r : Regs) : Regs :=
  if r.acc.getLsbD 256 then r.raise .overflow else { r with b := accToBytes r.acc, blen := 32#8 }.complete

theorem exec_decChk (s : State) : exec .decChk s = .next (s.setRegs s.regs.checked) := by
  rw [exec, execDecChk, Regs.checked]
  split
  · rfl
  · rfl

theorem coreTurn_decChk {r : Regs} (ph : r.ph = Config.phDecChk) : CoreTurn r r.checked := by
  refine coreTurn_of_exec (i := .decChk) (by rw [ph]; rfl) ?_
  rintro s rfl
  exact exec_decChk s

/-- Both outcomes of `DEC_CHK` complete the operation. -/
theorem Regs.checked_ph (r : Regs) : r.checked.ph = Config.phIdle := by
  rw [Regs.checked]
  split
  · rfl
  · rfl

/-- A value of `2^256` or more is not written (R147, R198, R224). -/
theorem Regs.checked_of_overflow {r : Regs} (h : 2 ^ 256 ≤ r.acc.toNat) : r.checked = r.raise .overflow :=
  if_pos ((getLsbD_256 _).mpr h)

end Sys2Proof.Machine
end

section
/-! SUPPORT. Every operation ends (40_commands.md R128): the turns that are left in each phase, under the invariant. -/

namespace Sys2Proof.Machine

open Sys2Proof.Safety

/-- A number below `62 ^ f` has at most `f` digits (R142). -/
theorem digitCount_le_of_lt {a f : Nat} (h : a < 62 ^ f) (pos : 0 < f) (le : f ≤ 43) : digitCount a ≤ f := by
  rw [digitCount, digitsOf, remainders_fuel f 43 a h pos le]
  exact remainders_length_le f a

/-- The digits that are still to be found have room in `DS` (R36, R142). -/
theorem room_of_inv {r : Regs} (I : Inv r) (ph : r.ph = Config.phEncDiv) :
    r.dcnt.toNat + digitCount r.acc.toNat ≤ 43 := by
  obtain ⟨blen, -, value⟩ := I.counters.encDiv ph
  have lt : 62 ^ r.dcnt.toNat * r.acc.toNat < 62 ^ 43 := by
    have := lt_of_lt_of_le (bytesToNat_lt r.b _ blen) (pow256_le blen)
    have := pow62_43
    simp only [Config.radix] at value
    omega
  rcases I.moreToDivide ph with first | more
  · rw [first]
    simpa using digitCount_le r.acc.toNat
  · have pos : 0 < r.acc.toNat :=
      Nat.pos_of_ne_zero fun z => more (BitVec.toNat_inj.mp (z.trans BitVec.toNat_zero.symm))
    have found : r.dcnt.toNat < 43 :=
      (Nat.pow_lt_pow_iff_right (by norm_num)).mp ((Nat.le_mul_of_pos_right _ pos).trans_lt lt)
    have small : r.acc.toNat < 62 ^ (43 - r.dcnt.toNat) := by
      rw [← Nat.add_sub_of_le found.le, pow_add] at lt
      exact Nat.lt_of_mul_lt_mul_left lt
    have := digitCount_le_of_lt small (by omega) (by omega)
    omega

/-- From `ENC_REV` on, one turn for each digit that is left (R168). -/
theorem reverse_ends {r : Regs} (I : Inv r) (ph : r.ph = Config.phEncRev) :
    ∃ n q, n ≤ 43 ∧ CoreRun n r q ∧ q.ph = Config.phIdle := by
  obtain ⟨-, dcnt, idx, -⟩ := I.counters.encRev ph
  obtain ⟨m, left⟩ : ∃ m, r.idx.toNat + (m + 1) = r.dcnt.toNat := ⟨r.dcnt.toNat - r.idx.toNat - 1, by omega⟩
  exact ⟨m + 1, _, by omega, .reverse ph (I.status_of_busy (by rw [ph]; decide)) dcnt left, rfl⟩

/-- From `ENC_DIV` on, one turn for each digit still to be found and then one for each digit (R128, R169). -/
theorem divide_ends {r : Regs} (I : Inv r) (ph : r.ph = Config.phEncDiv) :
    ∃ n q, n ≤ 86 ∧ CoreRun n r q ∧ q.ph = Config.phIdle := by
  obtain ⟨-, fits, -⟩ := I.counters.encDiv ph
  have status := I.status_of_busy (r := r) (by rw [ph]; decide)
  have room := room_of_inv I ph
  have pos := digitCount_pos r.acc.toNat
  have acc : r.acc = BitVec.ofNat 257 r.acc.toNat := BitVec.eq_of_toNat_eq (ofNat257_of_lt fits).symm
  obtain ⟨ds, dcnt, hdcnt, -, divide⟩ := CoreRun.divide fits ph status acc room
  obtain ⟨m, hm⟩ : ∃ m, dcnt.toNat = m + 1 := ⟨dcnt.toNat - 1, by omega⟩
  have reverse := CoreRun.reverse (m := m) (r := r.divided ds dcnt) rfl status (hdcnt ▸ room)
    ((Nat.zero_add _).trans hm.symm)
  exact ⟨_, _, by omega, divide.trans reverse, rfl⟩

/-- From `DEC_MAC` on, at most one turn for each character that is left and one for the check, whatever the characters
are (R128, R199). -/
theorem fold_ends {m : Nat} {r : Regs}
    (ph : r.ph = if r.idx.toNat = r.clen.toNat then Config.phDecChk else Config.phDecMac)
    (status : r.status = statusInFlight) (len : r.clen.toNat ≤ 43) (left : r.idx.toNat + m = r.clen.toNat) :
    ∃ n q, n ≤ m + 1 ∧ CoreRun n r q ∧ q.ph = Config.phIdle := by
  induction m generalizing r with
  | zero =>
    have all : r.idx.toNat = r.clen.toNat := left
    rw [if_pos all] at ph
    exact ⟨1, _, le_rfl, .one (by rw [ph]; decide) status (coreTurn_decChk ph), r.checked_ph⟩
  | succ m ih =>
    have h : r.idx.toNat < 43 := by omega
    rw [if_neg (by omega)] at ph
    have busy : r.ph ≠ Config.phIdle := by rw [ph]; decide
    cases digit : digitOf r.c[r.idx.toNat] with
    | none => exact ⟨1, _, by omega, .one busy status (coreTurn_decMac_of_no_digit ph h digit), rfl⟩
    | some d =>
      have next : (r.macStep d).idx.toNat = r.idx.toNat + 1 := Safety.count_succ (by omega)
      have less : (r.macStep d).idx.toNat + m = r.clen.toNat := by omega
      obtain ⟨n, q, le, run, idle⟩ := ih (r := r.macStep d) (by rw [next, ← ph]; rfl) status len less
      exact ⟨n + 1, q, by omega, .turn busy status (coreTurn_decMac_of_digit ph h digit) run, idle⟩

/-- R128: from every state with the invariant the core is idle again within 86 turns. -/
theorem core_ends {r : Regs} (I : Inv r) : ∃ n q, n ≤ 86 ∧ CoreRun n r q ∧ q.ph = Config.phIdle := by
  by_cases idle : r.ph = Config.phIdle
  · exact ⟨0, r, by omega, .done r, idle⟩
  have status : r.status = statusInFlight := I.status_of_busy idle
  have phase := I.phase
  rcases decodePhase_cases r.ph with ⟨ph, -⟩ | ⟨ph, -⟩ | ⟨ph, -⟩ | ⟨ph, -⟩ | ⟨ph, -⟩ | ⟨unused, -⟩
  · exact divide_ends I ph
  · obtain ⟨n, q, le, ends⟩ := reverse_ends I ph
    exact ⟨n, q, by omega, ends⟩
  · obtain ⟨len, idx, -⟩ := I.counters.decMac ph
    obtain ⟨n, q, le, ends⟩ :=
      fold_ends (m := r.clen.toNat - r.idx.toNat) (by rw [if_neg (by omega), ph]) status len (by omega)
    exact ⟨n, q, by omega, ends⟩
  · exact ⟨1, _, by omega, .one idle status (coreTurn_decChk ph), r.checked_ph⟩
  · exact absurd ph idle
  · omega

end Sys2Proof.Machine
end

section
/-! SUPPORT. What acceptance and the core steps of a decode compute, with each of the errors (43_decode.md R192, R199). -/

namespace Sys2Proof.Machine

/-! ### The first character without a digit (R190, R223) -/

theorem digitsOfString_cons (ch : Byte) (s : List Byte) :
    digitsOfString (ch :: s) = (digitOf ch).bind fun d => (digitsOfString s).map fun ds => d :: ds := by
  simp only [digitsOfString, List.mapM_cons]
  cases digitOf ch <;> cases s.mapM digitOf <;> rfl

/-- A string whose characters all have digits has no first bad one. -/
theorem firstBad_eq_none {s : List Byte} {ds : List Digit} (h : digitsOfString s = some ds) : firstBad s = none := by
  induction s generalizing ds with
  | nil => rfl
  | cons ch s ih =>
    rw [digitsOfString_cons] at h
    obtain ⟨d, hd, h⟩ := Option.bind_eq_some_iff.mp h
    obtain ⟨ds', hs, -⟩ := Option.map_eq_some_iff.mp h
    have rest := ih hs
    rw [firstBad] at rest
    rw [firstBad, List.findIdx?_cons, hd, rest]
    rfl

/-- A string with a bad character: those before the first bad one have digits. -/
theorem firstBad_eq_some {s : List Byte} (h : digitsOfString s = none) :
    ∃ (k : Nat) (hk : k < s.length) (ds : List Digit),
      firstBad s = some k ∧ digitsOfString (s.take k) = some ds ∧ digitOf s[k] = none := by
  induction s with
  | nil => cases h
  | cons ch s ih =>
    cases hd : digitOf ch with
    | none => exact ⟨0, Nat.succ_pos _, [], by rw [firstBad, List.findIdx?_cons, hd]; rfl, rfl, hd⟩
    | some d =>
      rw [digitsOfString_cons, hd, Option.bind_some, Option.map_eq_none_iff] at h
      obtain ⟨k, hk, ds, first, before, bad⟩ := ih h
      refine ⟨k + 1, Nat.succ_lt_succ hk, d :: ds, ?_, ?_, bad⟩
      · rw [firstBad] at first
        rw [firstBad, List.findIdx?_cons, hd, first]
        rfl
      · rw [List.take_succ_cons, digitsOfString_cons, hd, before]
        rfl

/-! ### The whole operations -/

/-- From the registers `r` the core is idle after exactly `n` turns, and the host then sees what it sees in `result`. -/
def Completes (n : Nat) (r result : Regs) : Prop :=
  ∃ q, CoreRun n r q ∧ q.view = result.view ∧ q.ph = Config.phIdle

theorem Regs.view_raise_folded (r : Regs) (k v : Nat) (e : ErrKind) :
    ((r.folded k v).raise e).view = (r.raise e).view := rfl

/-- R199: with a bad character the decode ends there, with `InvalidCharacter`. -/
theorem completes_decode_invalidCharacter {r : Regs} (len : r.clen.toNat ≤ 43)
    (h : digitsOfString r.decOperand = none) :
    Completes r.decSteps r.startDec r.wholeDec := by
  obtain ⟨k, hk, ds, first, before, bad⟩ := firstBad_eq_some h
  have steps : r.decSteps = k + 1 := by rw [Regs.decSteps, if_neg (not_lt.mpr len), first]
  have more : k < r.clen.toNat := by rwa [Regs.decOperand_length len] at hk
  have idx : (r.folded k (stringValue ds)).idx.toNat = k := by
    rw [Regs.folded, BitVec.toNat_ofNat, Nat.mod_eq_of_lt (by omega)]
  have ph := Regs.folded_ph_of_lt (v := stringValue ds) more
  have turn : CoreTurn (r.folded k (stringValue ds)) ((r.folded k (stringValue ds)).raise .invalidCharacter) := by
    refine coreTurn_decMac_of_no_digit ph (by omega) ?_
    simp only [Regs.decOperand, List.getElem_take, Vector.getElem_toList] at bad
    simp only [idx]
    exact bad
  refine ⟨_, steps ▸ (CoreRun.fold len more.le before).trans (.one (by rw [ph]; decide) rfl turn), ?_, rfl⟩
  rw [r.view_raise_folded, Regs.wholeDec, if_neg (not_lt.mpr len), decodeFn, h]

/-- A decode whose characters all have digits takes one turn for each of them and one for the check (R199). -/
theorem Regs.decSteps_of_digits {r : Regs} (len : r.clen.toNat ≤ 43) {ds : List Digit}
    (h : digitsOfString r.decOperand = some ds) : r.decSteps = r.clen.toNat + 1 := by
  rw [Regs.decSteps, if_neg (not_lt.mpr len), firstBad_eq_none h]

/-- R199: with a value of `2^256` or more the decode ends in the check, with `Overflow`. -/
theorem completes_decode_overflow {r : Regs} (len : r.clen.toNat ≤ 43) {ds : List Digit}
    (h : digitsOfString r.decOperand = some ds) (large : 2 ^ 256 ≤ stringValue ds) :
    Completes r.decSteps r.startDec r.wholeDec := by
  have fold : CoreRun r.clen.toNat r.startDec (r.folded r.clen.toNat (stringValue ds)) := by
    refine CoreRun.fold len le_rfl ?_
    rwa [List.take_of_length_le (Regs.decOperand_length len).le]
  have ph := r.folded_ph_last (stringValue ds)
  have acc : (r.folded r.clen.toNat (stringValue ds)).acc.toNat = stringValue ds := by
    have lt := stringValue_lt h
    rw [Regs.decOperand_length len] at lt
    have := pow62_le len
    rw [Regs.folded, BitVec.toNat_ofNat, Nat.mod_eq_of_lt (by omega)]
  have turn := coreTurn_decChk ph
  rw [Regs.checked_of_overflow (by rw [acc]; exact large)] at turn
  refine ⟨_, Regs.decSteps_of_digits len h ▸ fold.trans (.one (by rw [ph]; decide) rfl turn), ?_, rfl⟩
  rw [r.view_raise_folded, Regs.wholeDec, if_neg (not_lt.mpr len), decodeFn, h]
  simp only [if_pos large]

/-- R124, R128: `DEC` from its acceptance on, with every outcome. -/
theorem completes_acceptDec (r : Regs) : Completes r.decSteps r.acceptDec r.wholeDec := by
  rcases r.acceptDec_cases with ⟨long, e⟩ | ⟨len, e⟩
  · refine ⟨r.acceptDec, ?_, ?_, ?_⟩
    · rw [Regs.decSteps, if_pos long]
      exact .done _
    · rw [e, Regs.wholeDec, if_pos long]
    · rw [e, Regs.raise_ph]
  · rw [e]
    cases h : digitsOfString r.decOperand with
    | none => exact completes_decode_invalidCharacter len h
    | some ds =>
      by_cases large : 2 ^ 256 ≤ stringValue ds
      · exact completes_decode_overflow len h large
      · have value : decodeFn r.decOperand = .ok (stringValue ds) := by
          rw [decodeFn, h]
          exact if_neg large
        exact Regs.decSteps_of_digits len h ▸ CoreRun.decode len value

/-- R123, R128: `ENC` from its acceptance on, with both outcomes. -/
theorem completes_acceptEnc (r : Regs) : Completes r.encSteps r.acceptEnc r.wholeEnc := by
  rcases r.acceptEnc_cases with ⟨long, e⟩ | ⟨len, e⟩
  · refine ⟨r.acceptEnc, ?_, ?_, ?_⟩
    · rw [Regs.encSteps, if_pos long]
      exact .done _
    · rw [e, Regs.wholeEnc, if_pos long]
    · rw [e, Regs.raise_ph]
  · rw [e, Regs.encSteps, if_neg (not_lt.mpr len)]
    exact CoreRun.encode len

theorem exec_enc_idle {s : State} (h : s.regs.ph = Config.phIdle) :
    exec .enc s = .next (s.setRegs s.regs.acceptEnc) := by
  rw [exec, execEnc, Regs.gated_idle h]

theorem exec_dec_idle {s : State} (h : s.regs.ph = Config.phIdle) :
    exec .dec s = .next (s.setRegs s.regs.acceptDec) := by
  rw [exec, execDec, Regs.gated_idle h]

end Sys2Proof.Machine
end

section
/-! SUPPORT. Acceptance and the phase (40_commands.md R121, R126, R127): what a host line can do at rest, told apart by
whether it writes `CMD`, and the edges of the phase graph, one lemma per kind of step. -/

namespace Sys2Proof.Machine

/-! ### Lines that are no command, and lines that are -/

/-- A code that names no command raises `IllegalCommand` (R92, R125). -/
theorem Regs.accept_reserved (r : Regs) {v : Byte} (h₁ : v ≠ Config.opEnc) (h₂ : v ≠ Config.opDec) :
    r.accept v = r.raise .illegalCommand := by
  rw [Regs.accept, if_neg h₁, if_neg h₂]

/-- A host line that does not write `CMD` changes no register or is a plain store (R62, R63, R64). -/
theorem exec_hostInstr_store {w : TxWord} {s t : State}
    (h : ¬(txIsWrite w = true ∧ txOffset w = Config.cmdOffset)) (e : exec (hostInstr w) s = .next t) :
    t.regs = s.regs ∨ ∃ a v, t.regs = s.regs.poke a v := by
  rcases hostInstr_cases w with ⟨hw, ha, -⟩ | ⟨hw, ha, -⟩ | ⟨hw, -, i⟩ | ⟨-, i⟩
  · exact absurd ⟨hw, ha⟩ h
  · exact absurd ⟨hw, ha⟩ h
  · rw [i] at e
    rcases execWr_cases e with ⟨-, ha, -⟩ | ⟨-, -, rfl⟩ | ⟨-, rfl⟩
    · exact absurd ⟨hw, ha⟩ h
    · exact .inr ⟨_, _, rfl⟩
    · exact .inl rfl
  · rw [i] at e
    rw [execRd_cases e]
    exact .inl rfl

/-- A plain store leaves `STATUS` (R63). -/
@[simp] theorem Regs.poke_status_eq (r : Regs) (a : Offset) (v : Byte) : (r.poke a v).status = r.status := by
  obtain ⟨b, blen, clen, c, e⟩ := r.poke_eq_withOperands a v
  rw [e]

/-- A plain store leaves `PH` (R63). -/
@[simp] theorem Regs.poke_ph (r : Regs) (a : Offset) (v : Byte) : (r.poke a v).ph = r.ph := by
  obtain ⟨b, blen, clen, c, e⟩ := r.poke_eq_withOperands a v
  rw [e]

/-- At rest a step that is neither a reset nor a write of `CMD` changes no register or is a plain store. -/
theorem step_idle_cases {s t : State} (idle : s.regs.ph = Config.phIdle) (hr : s.script.head? ≠ some .reset)
    (hc : ∀ w, s.script.head? = some (.access w) → ¬(txIsWrite w = true ∧ txOffset w = Config.cmdOffset))
    (e : step s = .next t) : t.regs = s.regs ∨ ∃ a v, t.regs = s.regs.poke a v := by
  obtain ⟨u, hu, -, c⟩ := step_cases e
  rw [← hu]
  cases c with
  | encDiv p _ => exact absurd (idle.symm.trans p) (by decide)
  | encRev p _ => exact absurd (idle.symm.trans p) (by decide)
  | decMac p _ => exact absurd (idle.symm.trans p) (by decide)
  | decChk p _ => exact absurd (idle.symm.trans p) (by decide)
  | noStep _ e => exact .inl (congrArg State.regs e)
  | access w h e => exact exec_hostInstr_store (hc w h) e
  | macroRead a _ e => exact .inl (by rw [e, State.reply_regs])
  | reset h _ => exact absurd h hr

/-- The host line of a command is `WR 0x22` with its code (R102). -/
theorem eq_encodeWr_cmd {w : TxWord} {v : Byte} (hw : txIsWrite w = true) (ha : txOffset w = Config.cmdOffset)
    (hv : txValue w = v) : w = encodeWr Config.cmdOffset v := by
  rw [← encodeWr_fields hw, ha, hv]

/-! ### The edges of the phase graph (R126) -/

/-- A host line leaves `PH` but for an accepted `ENC` or `DEC`. -/
theorem ph_of_hostInstr {w : TxWord} {s t : State} (e : exec (hostInstr w) s = .next t) :
    t.regs.ph = s.regs.ph ∨
    (s.regs.ph = Config.phIdle ∧ w = 0xA201#16 ∧ s.regs.blen.toNat ≤ 32 ∧ t.regs = s.regs.loadEnc) ∨
    (s.regs.ph = Config.phIdle ∧ w = 0xA202#16 ∧ s.regs.clen.toNat ≤ 43 ∧ t.regs = s.regs.startDec) := by
  rcases hostInstr_cases w with ⟨hw, ha, hv, i⟩ | ⟨hw, ha, hv, i⟩ | ⟨hw, no, i⟩ | ⟨-, i⟩ <;> rw [i] at e
  · rcases execEnc_cases e with ⟨idle, rfl⟩ | ⟨-, rfl⟩
    · rcases s.regs.acceptEnc_cases with ⟨-, a⟩ | ⟨len, a⟩
      · exact .inl (by rw [State.setRegs_regs, a, Regs.raise_ph, idle])
      · exact .inr (.inl ⟨idle, (eq_encodeWr_cmd hw ha hv).trans (by decide), len, a⟩)
    · exact .inl rfl
  · rcases execDec_cases e with ⟨idle, rfl⟩ | ⟨-, rfl⟩
    · rcases s.regs.acceptDec_cases with ⟨-, a⟩ | ⟨len, a⟩
      · exact .inl (by rw [State.setRegs_regs, a, Regs.raise_ph, idle])
      · exact .inr (.inr ⟨idle, (eq_encodeWr_cmd hw ha hv).trans (by decide), len, a⟩)
    · exact .inl rfl
  · left
    rcases execWr_cases e with ⟨idle, ha, rfl⟩ | ⟨-, -, rfl⟩ | ⟨-, rfl⟩
    · have reserved := s.regs.accept_reserved (fun h => no ⟨ha, .inl h⟩) (fun h => no ⟨ha, .inr h⟩)
      rw [State.setRegs_regs, reserved, Regs.raise_ph, idle]
    · exact s.regs.poke_ph _ _
    · rfl
  · left
    rw [execRd_cases e, State.reply_regs]

/-- `ENC_DIV` leaves `PH` or, on a zero quotient, goes to `ENC_REV` (R165). -/
theorem ph_of_encDiv {s t : State} (fits : s.regs.acc.toNat < 2 ^ 256) (e : execEncDiv s = .next t) :
    t.regs.ph = s.regs.ph ∨ (t.regs.ph = Config.phEncRev ∧ s.regs.acc.toNat / 62 = 0) := by
  obtain ⟨-, q, d, hq, -, rfl⟩ := execEncDiv_cases e
  rw [Nat.mod_eq_of_lt fits] at hq
  by_cases zero : q = 0#256
  · exact .inr ⟨if_pos zero, by rw [← hq, zero, BitVec.toNat_zero]⟩
  · exact .inl (if_neg zero)

/-- `ENC_REV` leaves `PH` or, with the last digit, completes (R168). -/
theorem ph_of_encRev {s t : State} (e : execEncRev s = .next t) :
    t.regs.ph = s.regs.ph ∨
    (t.regs.ph = Config.phIdle ∧ s.regs.idx.toNat + 1 = s.regs.dcnt.toNat ∧ t.regs.status = statusSuccess) := by
  obtain ⟨-, -, -, c, -, ⟨last, rfl⟩ | ⟨-, rfl⟩⟩ := execEncRev_cases e
  · exact .inr ⟨rfl, last, rfl⟩
  · exact .inl rfl

/-- `DEC_MAC` leaves `PH`, or ends the decode on a bad character, or goes to `DEC_CHK` after the last one (R195). -/
theorem ph_of_decMac {s t : State} (e : execDecMac s = .next t) :
    t.regs.ph = s.regs.ph ∨
    (t.regs.ph = Config.phIdle ∧ (s.regs.c.toList[s.regs.idx.toNat]?).bind digitOf = none ∧
      t.regs.status = statusError .invalidCharacter) ∨
    (t.regs.ph = Config.phDecChk ∧ (s.regs.c.toList[s.regs.idx.toNat]?).bind digitOf ≠ none ∧
      s.regs.idx.toNat + 1 = s.regs.clen.toNat) := by
  obtain ⟨h, c⟩ := execDecMac_cases e
  have digit : (s.regs.c.toList[s.regs.idx.toNat]?).bind digitOf = digitOf s.regs.c[s.regs.idx.toNat] := by
    simp [h]
  rw [digit]
  rcases c with ⟨bad, rfl⟩ | ⟨d, good, rfl⟩
  · exact .inr (.inl ⟨rfl, bad, rfl⟩)
  · by_cases last : s.regs.idx.toNat + 1 = s.regs.clen.toNat
    · exact .inr (.inr ⟨if_pos last, by simp [good], last⟩)
    · exact .inl (if_neg last)

/-- `DEC_CHK` completes, with success or with `Overflow` (R198). -/
theorem ph_of_decChk {s t : State} (e : execDecChk s = .next t) :
    t.regs.ph = Config.phIdle ∧ (t.regs.status = statusSuccess ∨ t.regs.status = statusError .overflow) := by
  obtain ⟨-, rfl⟩ | ⟨-, rfl⟩ := execDecChk_cases e
  · exact ⟨rfl, .inr rfl⟩
  · exact ⟨rfl, .inl rfl⟩

end Sys2Proof.Machine
end

section
/-! SUPPORT. The statements about 40_commands.md, settled. -/

namespace Sys2Proof.Proofs

open Sys2Proof.Machine Sys2Proof.Safety

/-- Settles O52: in each phase the turns that are left are counted. -/
theorem coreTerminates : Obligations.CoreTerminates := by
  rintro ⟨r, script, replies⟩ I hscript
  obtain rfl : script = [] := hscript
  obtain ⟨n, q, le, run, idle⟩ := core_ends I
  exact ⟨n, _, le, run.run_nil replies, idle⟩

/-- Settles O55: the turns of the core compute the whole operation, and accesses in between reach nothing. -/
theorem interleavedOperation : Obligations.InterleavedOperation := by
  rintro ⟨r, script, replies⟩ moves idle kinds last i steps result operation count
  obtain ⟨p, e, q, run, view, ph⟩ :
      ∃ p, exec i ⟨r, moves, replies⟩ = .next ⟨p, moves, replies⟩ ∧ Completes steps p result := by
    rcases operation with ⟨rfl, rfl, rfl⟩ | ⟨rfl, rfl, rfl⟩
    · exact ⟨_, exec_enc_idle idle, completes_acceptEnc r⟩
    · exact ⟨_, exec_dec_idle idle, completes_acceptDec r⟩
  exact ⟨_, _, e, run.interleaved kinds last count replies, view, ph, rfl, rfl⟩

/-- Settles O30: at rest a step that is neither a reset nor a command is at most a plain store. -/
theorem statusIsKept : Obligations.StatusIsKept := by
  intro s t idle hr hc e
  rcases step_idle_cases idle hr hc e with same | ⟨a, v, store⟩
  · rw [same]
  · rw [store, Regs.poke_status_eq]

/-- Settles O50: one kind of step after the other, each with the edges it can take. -/
theorem phaseGraph : Obligations.PhaseGraph := by
  intro s t I hr e
  obtain ⟨u, hu, -, c⟩ := step_cases e
  rw [← hu] at I ⊢
  cases c with
  | encDiv p e =>
    obtain ⟨-, fits, -⟩ := I.counters.encDiv (hu ▸ p)
    rcases ph_of_encDiv fits e with same | edge
    · exact .inl same
    · exact .inr (.inr (.inl ⟨hu ▸ p, edge⟩))
  | encRev p e =>
    rcases ph_of_encRev e with same | edge
    · exact .inl same
    · exact .inr (.inr (.inr (.inl ⟨hu ▸ p, edge⟩)))
  | decMac p e =>
    rcases ph_of_decMac e with same | bad | last
    · exact .inl same
    · exact .inr (.inr (.inr (.inr (.inr (.inr (.inl ⟨hu ▸ p, bad⟩))))))
    · exact .inr (.inr (.inr (.inr (.inr (.inr (.inr (.inl ⟨hu ▸ p, last⟩)))))))
  | decChk p e => exact .inr (.inr (.inr (.inr (.inr (.inr (.inr (.inr ⟨hu ▸ p, ph_of_decChk e⟩)))))))
  | noStep p e => exact .inl (by rw [e])
  | access w h e =>
    rcases ph_of_hostInstr e with same | ⟨idle, rfl, len, load⟩ | ⟨idle, rfl, len, start⟩
    · exact .inl same
    · exact .inr (.inl ⟨idle, by rw [load, Regs.loadEnc_ph], h, len⟩)
    · by_cases empty : u.regs.clen = 0#8
      · exact .inr (.inr (.inr (.inr (.inr (.inl
          ⟨idle, by rw [start, Regs.startDec_ph, if_pos empty], h, empty⟩)))))
      · have pos : u.regs.clen.toNat ≠ 0 := fun z => empty (BitVec.eq_of_toNat_eq z)
        exact .inr (.inr (.inr (.inr (.inl
          ⟨idle, by rw [start, Regs.startDec_ph, if_neg empty], h, by omega, len⟩))))
  | macroRead a h e => exact .inl (by rw [e, State.reply_regs])
  | reset h e => exact absurd h hr

/-- Settles O31: a write of `CMD` at rest is its acceptance, code by code. -/
theorem acceptCommand : Obligations.AcceptCommand := by
  intro s v
  refine ⟨fun idle => ?_, fun busy => exec_wr_busy busy _ v⟩
  have accept : exec (.wr 0x22#7 v) s = .next (s.setRegs (s.regs.accept v)) := by
    rw [exec_wr_idle idle, ← s.regs.idleWrite_cmd v]
  rw [accept]
  refine ⟨?_, ?_, fun h₁ h₂ => ?_⟩
  · rintro rfl
    exact (exec_enc_idle idle).symm
  · rintro rfl
    exact (exec_dec_idle idle).symm
  · rw [s.regs.accept_reserved h₁ h₂, Regs.raise, ← idle]
    rfl

end Sys2Proof.Proofs
end

section
/-! SUPPORT. The arithmetic of 41_arithmetic.md: one division (R141), and the repeated division, whose remainders are
the library's digits to the base 62 (R142). -/

namespace Sys2Proof.Machine

/-- Quotient and remainder fit their registers, so `DivMod62` loses nothing (R141). -/
theorem divMod62_toNat (a : BitVec 256) :
    (divMod62 a).1.toNat = a.toNat / 62 ∧ (divMod62 a).2.toNat = a.toNat % 62 := by
  have fits : a.toNat / 62 < 2 ^ 256 := by omega
  have digit : a.toNat % 62 < 2 ^ 6 := by omega
  simp only [divMod62, BitVec.toNat_ofNat, Nat.mod_eq_of_lt fits, Nat.mod_eq_of_lt digit, and_self]

/-- With fuel for all its digits, the repeated division of a positive number finds exactly these. -/
theorem remainders_eq_digits {fuel a : Nat} (ne : a ≠ 0) (h : a < 62 ^ fuel) :
    remainders fuel a = Nat.digits 62 a := by
  induction fuel generalizing a with
  | zero => omega
  | succ fuel ih =>
    rw [remainders_succ, Nat.digits_eq_cons_digits_div (by norm_num) ne]
    by_cases q : a / 62 = 0
    · rw [if_pos q, q, Nat.digits_zero]
    · rw [if_neg q, ih q (by rw [pow_succ] at h; omega)]

theorem digitsOf_eq_digits {a : Nat} (ne : a ≠ 0) (h : a < 2 ^ 256) : digitsOf a = Nat.digits 62 a :=
  remainders_eq_digits ne (h.trans pow62_43)

/-- `n(a)` places hold `a`, and one place fewer does not (R142). -/
theorem digitCount_le_iff {a k : Nat} (ne : a ≠ 0) (h : a < 2 ^ 256) : digitCount a ≤ k ↔ a < 62 ^ k := by
  rw [digitCount, digitsOf_eq_digits ne h, Nat.digits_length_le_iff (by norm_num)]

/-- The value of a list of places, read back from the least significant end, as a sum of powers. -/
theorem ofPlaces_reverse_eq_sum (base : Nat) (l : List Nat) :
    ofPlaces base l.reverse = ∑ k ∈ Finset.range l.length, l.getD k 0 * base ^ k := by
  rw [ofPlaces_eq_sum, List.length_reverse, ← Finset.sum_range_reflect]
  refine Finset.sum_congr rfl fun k hk => ?_
  have hk : k < l.length := Finset.mem_range.mp hk
  have mirror : l.length - 1 - (l.length - 1 - k) = k := by omega
  rw [List.getD_reverse _ (by omega), mirror]

end Sys2Proof.Machine
end

section
/-! SUPPORT. Under the invariant every turn of the core completes (R146): every index it computes names an entry. -/

namespace Sys2Proof.Machine

open Sys2Proof.Safety

/-- At rest the turn changes nothing; in flight it is the first of the turns that end the operation. -/
theorem exists_coreTurn {r : Regs} (I : Inv r) : ∃ r', CoreTurn r r' := by
  obtain ⟨n, q, -, run, idle⟩ := core_ends I
  cases run with
  | done =>
    refine ⟨r, fun script replies => ?_⟩
    rw [coreTurn_of_idle (s := ⟨r, script, replies⟩) idle, Turn.perform]
  | turn _ _ first _ => exact ⟨_, first⟩

/-- Where the core's turn completes, every move but a wide access does (R280). -/
theorem step_next_of_coreTurn {s : State} {r' : Regs} (turn : CoreTurn s.regs r')
    (hw : ∀ z, s.script.head? ≠ some (.wide z)) : ∃ t, step s = .next t := by
  obtain ⟨r, script, replies⟩ := s
  cases script with
  | nil => exact ⟨_, (step_of_script_nil rfl).trans (turn [] replies)⟩
  | cons m rest =>
    cases m with
    | core => exact ⟨_, (step_core rfl).trans (turn rest replies)⟩
    | access w => exact step_access (s := ⟨r, .access w :: rest, replies⟩) rfl ▸ exec_hostInstr_next w _
    | poll => exact ⟨_, step_poll rfl⟩
    | getC => exact ⟨_, (step_getC rfl).trans (exec_rd _ _)⟩
    | test => exact ⟨_, (step_test rfl).trans (exec_rd _ _)⟩
    | reset => exact ⟨_, rfl⟩
    | wide z => exact absurd rfl (hw z)

end Sys2Proof.Machine
end

section
/-! SUPPORT. The statements about 41_arithmetic.md, settled. -/

namespace Sys2Proof.Proofs

open Sys2Proof.Machine

/-- Settles O16: inside the domain of R143 the sum is below `62 ^ 43`, and that fits 257 bits. -/
theorem mulAddNeverWraps : Obligations.MulAddNeverWraps :=
  ⟨fun _ _ _ hk ha hd => ⟨mulAdd62_toNat (ha.trans_le (pow62_le hk)) hd, mulAdd62_lt hk ha hd⟩, by norm_num⟩

/-- Settles O19: for a positive number the remainders are its digits to the base 62. -/
theorem digitCountLaw : Obligations.DigitCountLaw := by
  refine ⟨rfl, fun a h => ⟨digitCount_pos a, digitCount_le a, fun pos => ?_, remainders_le 43 a, ?_, fun ne => ?_⟩⟩
  · have count {k : Nat} := digitCount_le_iff (k := k) pos.ne' h
    have more : ¬ digitCount a ≤ digitCount a - 1 := by have := digitCount_pos a; omega
    exact ⟨not_lt.mp (mt count.mpr more), count.mp le_rfl⟩
  · rw [digitCount, ← ofPlaces_reverse_eq_sum, ofPlaces_digitsOf h]
  · rw [digitsOf_eq_digits ne h, List.getLast?_eq_some_getLast (Nat.digits_ne_nil_iff_ne_zero.mpr ne)]
    exact fun last => Nat.getLast_digit_ne_zero 62 ne (Option.some.inj last)

/-- Settles O47: the core's turn completes under the invariant, and host lines and resets complete in every state. -/
theorem invNeverStops : Obligations.InvNeverStops := by
  intro s I hw
  obtain ⟨_, turn⟩ := exists_coreTurn I
  exact step_next_of_coreTurn turn hw

/-- Settles O15: `DivMod62` is the division of the naturals. -/
theorem divModExact : Obligations.DivModExact := by
  intro a
  obtain ⟨hq, hr⟩ := divMod62_toNat a
  rw [hq, hr]
  exact ⟨by omega, by omega, fun q r _ _ => ⟨by omega, by omega⟩, by omega, by omega, by omega⟩

/-- Settles O44: an entry that is not there stops the step (log entry 5). -/
theorem indexStops : Obligations.IndexStops := by
  refine fun s => ⟨fun h => ?_, fun h => ?_, fun h => ?_⟩
  · rw [exec, execEncDiv, s.regs.setDigit_of_ge h]
  · rw [exec, execEncRev, if_neg (by omega)]
  · rw [exec, execDecMac, s.regs.charAt_of_ge h]

end Sys2Proof.Proofs
end

section
/-! SUPPORT. The functions of an encode: the digits behind `EncodeFn` (42_encode.md R160, R170), the value of its string
(R69, R190), and the bytes of a 32-byte value (30_encoding.md R95). -/

namespace Sys2Proof.Machine

/-! ### The characters of `EncodeFn` (R160) -/

/-- The `k`-th remainder of the repeated division is the digit at `62 ^ k` (R142). -/
theorem remainders_getElem? {fuel a k : Nat} (h : k < (remainders fuel a).length) :
    (remainders fuel a)[k]? = some (a / 62 ^ k % 62) := by
  induction fuel generalizing a k with
  | zero => exact absurd h (Nat.not_lt_zero k)
  | succ fuel ih =>
    cases k with
    | zero => rw [remainders_succ, List.getElem?_cons_zero, pow_zero, Nat.div_one]
    | succ k =>
      by_cases q : a / 62 = 0
      · rw [remainders_succ, if_pos q, List.length_singleton] at h
        omega
      · rw [remainders_succ, if_neg q] at h ⊢
        rw [List.getElem?_cons_succ, ih (Nat.lt_of_succ_lt_succ h), Nat.div_div_eq_div_mul, pow_succ']

theorem encodeFn_getElem? {v j : Nat} (h : j < digitCount v) :
    (encodeFn v)[j]? = some (alpha (BitVec.ofNat 6 (v / 62 ^ (digitCount v - 1 - j) % 62))) := by
  have mirror : digitCount v - 1 - j < (digitsOf v).length := by rw [← digitCount]; omega
  rw [encodeFn, List.getElem?_map, List.getElem?_reverse h, ← digitCount, digitsOf, remainders_getElem? mirror,
    Option.map_some]

/-- The digits as `DS` stores them have the values of the remainders (R31). -/
theorem digit_toNat {d : Nat} (h : d ≤ 61) : (BitVec.ofNat 6 d).toNat = d := by
  rw [BitVec.toNat_ofNat, Nat.mod_eq_of_lt (by omega)]

theorem digit_le {d : Nat} (h : d ≤ 61) : (BitVec.ofNat 6 d).toNat ≤ 61 := (digit_toNat h).trans_le h

/-- Every character of `EncodeFn(v)` is in the alphabet (R170). -/
theorem digitOf_ne_none_of_mem_encodeFn {v : Nat} {ch : Byte} (h : ch ∈ encodeFn v) : digitOf ch ≠ none := by
  obtain ⟨d, mem, rfl⟩ := List.mem_map.mp h
  rw [digitOf_alpha (digit_le (remainders_le 43 v d (List.mem_reverse.mp mem)))]
  exact Option.some_ne_none _

/-- `A` stands for the digit 0 only (R96). -/
theorem alpha_eq_A {d : Nat} (le : d ≤ 61) (h : alpha (BitVec.ofNat 6 d) = 0x41#8) : d = 0 := by
  have digit := digitOf_alpha (digit_le le)
  rw [h] at digit
  rw [← digit_toNat le, ← Option.some.inj digit]
  rfl

/-- The last remainder of the repeated division of a positive number is not 0 (R142). -/
theorem digitsOf_getLast?_ne_zero {v : Nat} (ne : v ≠ 0) (h : v < 2 ^ 256) : (digitsOf v).getLast? ≠ some 0 := by
  obtain ⟨-, law⟩ := Proofs.digitCountLaw
  obtain ⟨-, -, -, -, -, last⟩ := law v h
  exact last ne

/-- Only 0 has a string that begins with `A` (R170). -/
theorem encodeFn_head?_ne_A {v : Nat} (ne : v ≠ 0) (h : v < 2 ^ 256) : (encodeFn v).head? ≠ some 0x41#8 := by
  rw [encodeFn, List.head?_map, List.head?_reverse]
  intro head
  obtain ⟨d, last, isA⟩ := Option.map_eq_some_iff.mp head
  have le := remainders_le 43 v d (List.mem_of_getLast? last)
  exact digitsOf_getLast?_ne_zero ne h (alpha_eq_A le isA ▸ last)

/-- R170: 43 characters are needed exactly from `62 ^ 42` on. -/
theorem digitCount_eq_43_iff {v : Nat} (h : v < 2 ^ 256) : digitCount v = 43 ↔ 62 ^ 42 ≤ v := by
  rcases eq_or_ne v 0 with rfl | ne
  · decide
  · have le := digitCount_le v
    have fits := digitCount_le_iff (k := 42) ne h
    omega

/-! ### The value of the string (R190) -/

/-- The characters of digits have these digits. -/
theorem digitsOfString_map_alpha {ds : List Digit} (h : ∀ d ∈ ds, d.toNat ≤ 61) :
    digitsOfString (ds.map alpha) = some ds := by
  induction ds with
  | nil => rfl
  | cons d ds ih =>
    rw [List.map_cons, digitsOfString_cons, digitOf_alpha (h d List.mem_cons_self), Option.bind_some,
      ih fun e he => h e (List.mem_cons_of_mem d he), Option.map_some]

/-- The digits of `v` as `DS` stores them, most significant first, have the value `v` (R69, R160). -/
theorem stringValue_digitsOf {v : Nat} (h : v < 2 ^ 256) :
    stringValue ((digitsOf v).map (BitVec.ofNat 6)).reverse = v := by
  have values : ((digitsOf v).map (BitVec.ofNat 6)).map BitVec.toNat = digitsOf v := by
    rw [List.map_map]
    exact (List.map_congr_left fun d hd => digit_toNat (remainders_le 43 v d hd)).trans (List.map_id _)
  rw [stringValue, List.map_reverse, values, Config.radix, ofPlaces_digitsOf h]

/-- R200 (a): `DecodeFn` inverts `EncodeFn`. -/
theorem decodeFn_encodeFn {v : Nat} (h : v < 2 ^ 256) : decodeFn (encodeFn v) = .ok v := by
  have digits : digitsOfString (encodeFn v) = some ((digitsOf v).map (BitVec.ofNat 6)).reverse := by
    rw [← alpha_digits_eq_encodeFn]
    refine digitsOfString_map_alpha fun e he => ?_
    obtain ⟨d, hd, rfl⟩ := List.mem_map.mp (List.mem_reverse.mp he)
    exact digit_le (remainders_le 43 v d hd)
  rw [decodeFn, digits]
  simp only [stringValue_digitsOf h, if_neg (not_le.mpr h)]

theorem encodeFn_inj {v w : Nat} (hv : v < 2 ^ 256) (hw : w < 2 ^ 256) (h : encodeFn v = encodeFn w) : v = w := by
  have value := decodeFn_encodeFn hv
  rw [h, decodeFn_encodeFn hw] at value
  exact (Except.ok.inj value).symm

/-! ### The bytes of a 32-byte value (R95) -/

/-- A place below the base is read back from the value. -/
theorem ofPlaces_place {base : Nat} {l : List Nat} (h : ∀ d ∈ l, d < base) {i : Nat} (hi : i < l.length) :
    ofPlaces base l / base ^ (l.length - 1 - i) % base = l[i] := by
  induction l using List.reverseRecOn with
  | nil => exact absurd hi (Nat.not_lt_zero i)
  | append_singleton l e ih =>
    have he : e < base := h e (by simp)
    rw [List.length_append, List.length_singleton] at hi ⊢
    rw [ofPlaces_concat]
    by_cases last : i = l.length
    · subst last
      rw [Nat.add_sub_cancel, Nat.sub_self, pow_zero, Nat.div_one, Nat.mul_add_mod, Nat.mod_eq_of_lt he,
        List.getElem_concat_length rfl]
    · have lt : i < l.length := by omega
      have drop : (base * ofPlaces base l + e) / base = ofPlaces base l := by
        rw [Nat.mul_add_div (by omega), Nat.div_eq_of_lt he, Nat.add_zero]
      rw [(by omega : l.length + 1 - 1 - i = l.length - 1 - i + 1), pow_succ', ← Nat.div_div_eq_div_mul, drop,
        ih (fun d hd => h d (List.mem_append_left _ hd)) lt, List.getElem_append_left lt]

/-- Rendering the value of 32 bytes gives the bytes (R171). -/
theorem natToBytes32_bytesToNat (b : Vector Byte 32) : natToBytes32 (bytesToNat b 32) = b := by
  refine Vector.ext fun i hi => BitVec.eq_of_toNat_eq ?_
  have all : b.toList.take 32 = b.toList := List.take_of_length_le (by simp)
  have bytes : ∀ d ∈ b.toList.map BitVec.toNat, d < 256 := by
    intro d hd
    obtain ⟨x, -, rfl⟩ := List.mem_map.mp hd
    exact x.isLt
  have place := ofPlaces_place bytes (i := i) (by simpa using hi)
  rw [natToBytes32_getElem_toNat _ hi, bytesToNat, all]
  simpa using place

theorem natToBytes32_encOperand {r : Regs} (full : r.blen = 32#8) : natToBytes32 r.encOperand = r.b := by
  rw [Regs.encOperand, full]
  exact natToBytes32_bytesToNat r.b

end Sys2Proof.Machine
end

section
/-! SUPPORT. Commands that go in flight (42_encode.md R163, 43_decode.md R194), a run of the core before its end
(40_commands.md R128), and what an encode leaves in `C` and `CLEN` (R169). -/

namespace Sys2Proof.Machine

/-- A run of `k + m` turns is a run of `k` and then one of `m`. -/
theorem CoreRun.split {k m : Nat} {r r' : Regs} (h : CoreRun (k + m) r r') :
    ∃ u, CoreRun k r u ∧ CoreRun m u r' := by
  induction k generalizing r with
  | zero => exact ⟨r, .done r, Nat.zero_add m ▸ h⟩
  | succ k ih =>
    rw [Nat.succ_add] at h
    cases h with
    | turn busy status first rest =>
      obtain ⟨u, before, after⟩ := ih rest
      exact ⟨u, .turn busy status first before, after⟩

/-- Left alone with turns to come, the core is in flight (R128). -/
theorem CoreRun.run_in_flight {n : Nat} {r r' : Regs} (h : CoreRun n r r') (replies : List Byte) {k : Nat}
    (left : k < n) : ∃ w, Host.Core.run core k ⟨r, [], replies⟩ = .next w ∧ w.regs.ph ≠ Config.phIdle ∧
      w.regs.status = statusInFlight := by
  obtain ⟨m, rfl⟩ := Nat.exists_eq_add_of_lt left
  obtain ⟨u, before, after⟩ := CoreRun.split (m := m + 1) h
  exact ⟨_, before.run_nil replies, after.in_flight m.succ_pos⟩

theorem writeString_getElem?_of_lt (old : Vector Byte 43) {s : List Byte} {j : Nat} (h : j < 43) (lt : j < s.length) :
    s[j]? = some (writeString old s)[j] := by
  simp [writeString, lt]

theorem writeString_getElem_of_ge (old : Vector Byte 43) {s : List Byte} {j : Nat} (h : j < 43)
    (ge : s.length ≤ j) : (writeString old s)[j] = old[j] := by
  simp [writeString, ge]

theorem Regs.encOperand_lt {r : Regs} (h : r.blen.toNat ≤ 32) : r.encOperand < 2 ^ 256 :=
  (bytesToNat_lt r.b _ h).trans_le (pow256_le h)

/-- `CLEN` after an encode is `n(v)` (R169). -/
theorem clen_of_wholeEnc {r q : Regs} (h : r.blen.toNat ≤ 32) (view : q.view = r.wholeEnc.view) :
    q.clen.toNat = digitCount r.encOperand := by
  have le := digitCount_le r.encOperand
  obtain ⟨clen, -, -⟩ := decOperand_of_wholeEnc h view
  rw [clen, encodeFn_length, length_toNat (by omega)]

/-- `ENC` at rest, for at most 32 bytes, goes in flight with the value loaded (R163). -/
theorem exec_enc_load {s : State} (idle : s.regs.ph = Config.phIdle) (h : s.regs.blen.toNat ≤ 32) :
    exec .enc s = .next (s.setRegs s.regs.loadEnc) := by
  rw [exec_enc_idle idle, Regs.acceptEnc, if_neg (not_lt.mpr h)]

/-- `DEC` at rest, for at most 43 characters, goes in flight (R194). -/
theorem exec_dec_start {s : State} (idle : s.regs.ph = Config.phIdle) (h : s.regs.clen.toNat ≤ 43) :
    exec .dec s = .next (s.setRegs s.regs.startDec) := by
  rw [exec_dec_idle idle, Regs.acceptDec, if_neg (not_lt.mpr h)]

end Sys2Proof.Machine
end

section
/-! SUPPORT. The frames of 42_encode.md: what acceptance (R162, R163) and the steps of an encode (R165, R168) leave of
the register space. -/

namespace Sys2Proof.Machine

theorem Regs.peek_setStatus_of_ne (r : Regs) {x : Offset} (ne : x ≠ Config.statusOffset) (v : Byte) :
    Regs.peek { r with status := v } x = r.peek x := by
  rw [Regs.peek, Regs.peek, if_neg ne, if_neg ne]

/-- Registers that the host sees with another `STATUS` only read alike everywhere else. -/
theorem Regs.peek_of_view_setStatus {r r' : Regs} {v : Byte} (h : r'.view = Regs.view { r with status := v })
    {x : Offset} (ne : x ≠ Config.statusOffset) : r'.peek x = r.peek x :=
  (Regs.peek_congr h x).trans (r.peek_setStatus_of_ne ne v)

/-- Registers that went in flight (R163, R194): besides `STATUS` only working registers other than `DS` have changed. -/
def Regs.GoesInFlight (r r' : Regs) : Prop :=
  ∃ acc ph, ph ≠ Config.phIdle ∧
    r' = { r with acc := acc, dcnt := 0#6, idx := 0#6, status := statusInFlight, ph := ph }

theorem Regs.goesInFlight_loadEnc (r : Regs) : r.GoesInFlight r.loadEnc := ⟨_, Config.phEncDiv, by decide, rfl⟩

theorem Regs.goesInFlight_startDec (r : Regs) : r.GoesInFlight r.startDec := by
  refine ⟨_, r.startDec.ph, ?_, rfl⟩
  rw [Regs.startDec_ph]
  split <;> decide

/-- Everything a command can do: nothing, an error, or going in flight (R64, R121). -/
theorem exec_command_cases {s t : State} {i : Instr} (hi : i = .enc ∨ i = .dec) (e : exec i s = .next t) :
    t = s ∨ (∃ k, t = s.setRegs (s.regs.raise k)) ∨ ∃ r, s.regs.GoesInFlight r ∧ t = s.setRegs r := by
  rcases hi with rfl | rfl
  · rcases execEnc_cases e with ⟨-, rfl⟩ | ⟨-, rfl⟩
    · rcases s.regs.acceptEnc_cases with ⟨-, a⟩ | ⟨-, a⟩ <;> rw [a]
      · exact .inr (.inl ⟨_, rfl⟩)
      · exact .inr (.inr ⟨_, s.regs.goesInFlight_loadEnc, rfl⟩)
    · exact .inl rfl
  · rcases execDec_cases e with ⟨-, rfl⟩ | ⟨-, rfl⟩
    · rcases s.regs.acceptDec_cases with ⟨-, a⟩ | ⟨-, a⟩ <;> rw [a]
      · exact .inr (.inl ⟨_, rfl⟩)
      · exact .inr (.inr ⟨_, s.regs.goesInFlight_startDec, rfl⟩)
    · exact .inl rfl

end Sys2Proof.Machine
end

section
/-! SUPPORT. The statements about 42_encode.md, settled. -/

namespace Sys2Proof.Proofs

open Sys2Proof.Machine

/-- Settles O53: the turns of the core after the load, and the view they end in. -/
theorem encodeResult : Obligations.EncodeResult := by
  rintro ⟨r, script, replies⟩ v idle hscript len rfl
  obtain rfl : script = [] := hscript
  obtain ⟨q, run, view, ph⟩ := CoreRun.encode len
  have clen := clen_of_wholeEnc len view
  rw [Regs.wholeEnc_view len] at view
  have c : q.c = writeString r.c (encodeFn r.encOperand) := congrArg HostView.c view
  have length := encodeFn_length r.encOperand
  refine ⟨_, ⟨q, [], replies⟩, exec_enc_load idle len, run.run_nil replies, ph, congrArg HostView.status view, clen,
    fun j h lt => ?_, fun j h ge => ?_, congrArg HostView.b view, congrArg HostView.blen view, rfl, rfl,
    fun k left => run.run_in_flight replies left⟩
  · simp only [c]
    exact writeString_getElem?_of_lt r.c h (lt.trans_eq length.symm)
  · simp only [c]
    exact writeString_getElem_of_ge r.c h (length.trans_le ge)

/-- Settles O56: the string that the encode leaves is decoded to the value, and 32 bytes are those of their value. -/
theorem roundTrip : Obligations.RoundTrip := by
  rintro ⟨r, script, replies⟩ v idle hscript len rfl
  obtain rfl : script = [] := hscript
  obtain ⟨q, encode, view, ph⟩ := CoreRun.encode len
  have clen := clen_of_wholeEnc len view
  obtain ⟨-, short, string⟩ := decOperand_of_wholeEnc len view
  have value : decodeFn q.decOperand = .ok r.encOperand := by rw [string, decodeFn_encodeFn (Regs.encOperand_lt len)]
  obtain ⟨p, decode, view, idle'⟩ := CoreRun.decode short value
  rw [Regs.wholeDec_view short value] at view
  rw [clen] at decode
  have bytes : p.b = natToBytes32 r.encOperand := congrArg HostView.b view
  refine ⟨_, ⟨q, [], replies⟩, _, ⟨p, [], replies⟩, exec_enc_load idle len, encode.run_nil replies,
    exec_dec_start ph short, decode.run_nil replies, idle', congrArg HostView.status view,
    congrArg HostView.blen view, bytes, fun full => bytes.trans (natToBytes32_encOperand full)⟩

/-- Settles O20. -/
theorem encodeFnDigits : Obligations.EncodeFnDigits :=
  fun v _ => ⟨encodeFn_length v, fun _ h => encodeFn_getElem? h⟩

/-- Settles O22: the characters stand for the digits of the value, and `DecodeFn` gives it back. -/
theorem encodeFnCanonical : Obligations.EncodeFnCanonical := by
  refine ⟨fun v h => ?_, rfl, fun v w => encodeFn_inj⟩
  rw [encodeFn_length]
  refine ⟨digitCount_pos v, digitCount_le v, fun _ => digitOf_ne_none_of_mem_encodeFn, fun head => ?_,
    digitCount_eq_43_iff h⟩
  obtain rfl : v = 0 := by_contra fun ne => encodeFn_head?_ne_A ne h head
  rfl

/-- Settles O36: a command changes nothing, completes with an error or goes in flight. -/
theorem frameAcceptance : Obligations.FrameAcceptance := by
  intro s t i hi e
  rcases exec_command_cases hi e with rfl | ⟨k, rfl⟩ | ⟨_, ⟨acc, ph, busy, rfl⟩, rfl⟩
  · exact ⟨fun _ _ => rfl, rfl, rfl, rfl, rfl, rfl, rfl, rfl, fun _ => ⟨rfl, rfl, rfl⟩⟩
  · exact ⟨fun _ => Regs.peek_of_view_setStatus (v := statusError k) rfl, rfl, rfl, rfl, rfl, rfl, rfl, rfl,
      fun _ => ⟨rfl, rfl, rfl⟩⟩
  · exact ⟨fun _ => Regs.peek_of_view_setStatus (v := statusInFlight) rfl, rfl, rfl, rfl, rfl, rfl, rfl, rfl,
      fun idle => absurd idle busy⟩

/-- Settles O42: `ENC_DIV` changes nothing that the host sees, `ENC_REV` one character and, at the end, `CLEN` and
`STATUS`. -/
theorem frameEncodeSteps : Obligations.FrameEncodeSteps := by
  refine fun s t => ⟨fun e => ?_, fun e => ?_⟩
  · obtain ⟨lt, q, d, -, -, rfl⟩ := execEncDiv_cases e
    exact ⟨Regs.peek_congr rfl, fun k h ne => Vector.getElem_set_ne lt h ne.symm, rfl, rfl⟩
  · obtain ⟨-, -, hj, c, rfl, ⟨last, rfl⟩ | ⟨-, rfl⟩⟩ := execEncRev_cases e
    · refine ⟨fun x hc hl hs => ?_, fun more => absurd last more, rfl, rfl, rfl, rfl, rfl⟩
      rw [← s.regs.peek_setC_of_ne hj hc, ← Regs.peek_setClen_of_ne _ hl, ← Regs.peek_setStatus_of_ne _ hs]
      exact Regs.peek_congr rfl x
    · refine ⟨fun x hc _ _ => ?_, fun _ => ⟨rfl, rfl, rfl⟩, rfl, rfl, rfl, rfl, rfl⟩
      rw [← s.regs.peek_setC_of_ne hj hc]
      exact Regs.peek_congr rfl x

/-- Settles O32: the length decides between the error and the load. -/
theorem encLengthCheck : Obligations.EncLengthCheck := by
  refine fun s idle => ⟨fun long => ?_, fun t len e => ?_⟩
  · have check : s.regs.acceptEnc = s.regs.raise .invalidLength := if_pos long
    rw [exec_enc_idle idle, check, Regs.raise, ← idle]
    rfl
  · rw [exec_enc_load idle len] at e
    obtain rfl := Host.Outcome.next.inj e
    rw [State.setRegs_regs, Regs.loadEnc_status]
    decide

/-- Settles O33. -/
theorem encLoad : Obligations.EncLoad := fun _ idle len => exec_enc_load idle len

/-- Settles O38. -/
theorem encDivStep : Obligations.EncDivStep := fun _ h _ ha => exec_encDiv h ha

/-- Settles O39. -/
theorem encRevStep : Obligations.EncRevStep := fun _ hd hi => exec_encRev hd hi

end Sys2Proof.Proofs
end

section
/-! SUPPORT. `DecodeFn` by its outcomes (43_decode.md R190, R200), and the decode steps in single states (R195, R198). -/

namespace Sys2Proof.Machine

/-! ### Strings with and without a bad character (R190, R223) -/

theorem firstBad_eq_none_iff {s : List Byte} : firstBad s = none ↔ ∀ ch ∈ s, digitOf ch ≠ none := by
  simp only [firstBad, List.findIdx?_eq_none_iff, Option.isNone_eq_false_iff, Option.isSome_iff_ne_none]

theorem exists_digitsOfString {s : List Byte} (h : firstBad s = none) : ∃ ds, digitsOfString s = some ds := by
  refine Option.ne_none_iff_exists'.mp fun bad => ?_
  obtain ⟨k, -, -, first, -, -⟩ := firstBad_eq_some bad
  exact Option.some_ne_none k (first.symm.trans h)

theorem decodeFn_of_bad {s : List Byte} (h : firstBad s ≠ none) : decodeFn s = .error .invalidCharacter := by
  rw [decodeFn]
  cases hs : digitsOfString s with
  | none => rfl
  | some ds => exact absurd (firstBad_eq_none hs) h

theorem decodeFn_of_digits {s : List Byte} {ds : List Digit} (h : digitsOfString s = some ds) :
    decodeFn s = if 2 ^ 256 ≤ stringValue ds then .error .overflow else .ok (stringValue ds) := by
  rw [decodeFn, h]

theorem decodeFn_cases_of_digits {s : List Byte} (h : firstBad s = none) :
    decodeFn s = .error .overflow ∨ ∃ v, decodeFn s = .ok v := by
  obtain ⟨ds, hs⟩ := exists_digitsOfString h
  by_cases large : 2 ^ 256 ≤ stringValue ds
  · exact .inl ((decodeFn_of_digits hs).trans (if_pos large))
  · exact .inr ⟨_, (decodeFn_of_digits hs).trans (if_neg large)⟩

/-! ### The value of the string (R190, R200) -/

theorem digitsOfString_eq_map {s : List Byte} {ds : List Digit} (h : digitsOfString s = some ds) :
    ds = s.map fun ch => (digitOf ch).getD 0#6 := by
  induction s generalizing ds with
  | nil =>
    cases h
    rfl
  | cons ch s ih =>
    rw [digitsOfString_cons] at h
    obtain ⟨d, hd, h⟩ := Option.bind_eq_some_iff.mp h
    obtain ⟨ds, hs, rfl⟩ := Option.map_eq_some_iff.mp h
    rw [List.map_cons, hd, Option.getD_some, ← ih hs]

/-- R190, written out. -/
theorem stringValue_eq_sum {s : List Byte} {ds : List Digit} (h : digitsOfString s = some ds) :
    stringValue ds = ∑ j ∈ Finset.range s.length,
      ((digitOf (s.getD j 0#8)).getD 0#6).toNat * 62 ^ (s.length - 1 - j) := by
  rw [digitsOfString_eq_map h, stringValue, ofPlaces_eq_sum, List.length_map, List.length_map]
  refine Finset.sum_congr rfl fun j hj => ?_
  have hj : j < s.length := Finset.mem_range.mp hj
  simp [List.getD_eq_getElem?_getD, hj]

/-- A leading `A` is a zero place (R200 (b)). -/
theorem decodeFn_A_cons (s : List Byte) : decodeFn (0x41#8 :: s) = decodeFn s := by
  have zero : digitOf 0x41#8 = some 0#6 := rfl
  rw [decodeFn, digitsOfString_cons, zero, Option.bind_some, decodeFn]
  cases digitsOfString s with
  | none => rfl
  | some ds =>
    have value : stringValue (0#6 :: ds) = stringValue ds := ofPlaces_zero_cons 62 _
    simp only [Option.map_some, value]

/-- 42 characters have a value below `62 ^ 42`, which is below `2 ^ 256` (R200 (d)). -/
theorem decodeFn_ne_overflow {s : List Byte} (h : s.length ≤ 42) : decodeFn s ≠ .error .overflow := by
  by_cases good : firstBad s = none
  · obtain ⟨ds, hs⟩ := exists_digitsOfString good
    have fits : stringValue ds < 62 ^ 42 := (stringValue_lt hs).trans_le (pow62_le h)
    rw [decodeFn_of_digits hs, if_neg (by omega)]
    exact nofun
  · rw [decodeFn_of_bad good]
    decide

/-! ### The whole decode by its outcomes (R124, R199) -/

theorem completes_startDec {r : Regs} (len : r.clen.toNat ≤ 43) : Completes r.decSteps r.startDec r.wholeDec := by
  have start : r.acceptDec = r.startDec := if_neg (not_lt.mpr len)
  exact start ▸ completes_acceptDec r

theorem Regs.decSteps_of_firstBad {r : Regs} (len : r.clen.toNat ≤ 43) {k : Nat}
    (h : firstBad r.decOperand = some k) : r.decSteps = k + 1 := by
  rw [Regs.decSteps, if_neg (not_lt.mpr len), h]

theorem Regs.decSteps_of_firstBad_none {r : Regs} (len : r.clen.toNat ≤ 43) (h : firstBad r.decOperand = none) :
    r.decSteps = r.clen.toNat + 1 := by
  rw [Regs.decSteps, if_neg (not_lt.mpr len), h]

theorem Regs.wholeDec_of_error {r : Regs} (len : r.clen.toNat ≤ 43) {k : ErrKind}
    (h : decodeFn r.decOperand = .error k) : r.wholeDec = r.raise k := by
  rw [Regs.wholeDec, if_neg (not_lt.mpr len), h]

/-! ### `DEC_MAC` and `DEC_CHK` -/

theorem exec_decMac_of_no_digit {s : State} (h : s.regs.idx.toNat < 43)
    (bad : digitOf s.regs.c[s.regs.idx.toNat] = none) :
    exec .decMac s = .next (s.setRegs (s.regs.raise .invalidCharacter)) := by
  rw [exec, execDecMac]
  simp only [s.regs.charAt_of_lt h, bad]

/-- The value `DEC_MAC` computes inside the domain of R143. -/
theorem mulAdd62_of_lt {a : Accum} {d : Digit} (ha : a.toNat < 62 ^ 42) (hd : d.toNat ≤ 61) :
    mulAdd62 a d = BitVec.ofNat 257 (62 * a.toNat + d.toNat) := if_pos ⟨ha, hd⟩

theorem Regs.peek_setBuffer_of_ge (r : Regs) {x : Offset} (ge : 32 ≤ x.toNat) (b : Vector Byte 32) :
    Regs.peek { r with b := b } x = r.peek x := by
  rw [Regs.peek, Regs.peek, dif_neg (not_lt.mpr ge), dif_neg (not_lt.mpr ge)]

/-- An error changes nothing that the host sees but `STATUS` (R228). -/
theorem Regs.peek_raise_of_ne (r : Regs) (k : ErrKind) {x : Offset} (ne : x ≠ Config.statusOffset) :
    (r.raise k).peek x = r.peek x := Regs.peek_of_view_setStatus (v := statusError k) rfl ne

end Sys2Proof.Machine
end

section
/-! SUPPORT. The statements about 43_decode.md, settled. -/

namespace Sys2Proof.Proofs

open Sys2Proof.Machine

/-- Settles O54: the turns of the core after the start, and the view they end in, outcome by outcome of `DecodeFn`. -/
theorem decodeResult : Obligations.DecodeResult := by
  rintro ⟨r, script, replies⟩ text idle hscript len rfl
  obtain rfl : script = [] := hscript
  obtain ⟨q, run, view, ph⟩ := completes_startDec len
  refine ⟨_, exec_dec_start idle len, fun k first => ?_, fun good => ?_⟩
  · have error : decodeFn r.decOperand = .error .invalidCharacter :=
      decodeFn_of_bad fun good => Option.some_ne_none k (first.symm.trans good)
    rw [Regs.decSteps_of_firstBad len first] at run
    rw [Regs.wholeDec_of_error len error] at view
    exact ⟨error, ⟨q, [], replies⟩, run.run_nil replies, ph, congrArg HostView.status view,
      congrArg HostView.b view, congrArg HostView.blen view, congrArg HostView.c view, congrArg HostView.clen view⟩
  · rw [Regs.decSteps_of_firstBad_none len good] at run
    refine ⟨⟨q, [], replies⟩, run.run_nil replies, ph, ?_⟩
    rcases decodeFn_cases_of_digits good with error | ⟨v, value⟩
    · rw [Regs.wholeDec_of_error len error] at view
      exact ⟨congrArg HostView.c view, congrArg HostView.clen view, .inl ⟨error, congrArg HostView.status view,
        congrArg HostView.b view, congrArg HostView.blen view⟩⟩
    · rw [Regs.wholeDec_view len value] at view
      exact ⟨congrArg HostView.c view, congrArg HostView.clen view, .inr ⟨v, value, congrArg HostView.status view,
        congrArg HostView.b view, congrArg HostView.blen view⟩⟩

/-- Settles O21: a bad character comes first, and then the value decides. -/
theorem decodeFnValue : Obligations.DecodeFnValue := by
  rintro s -
  refine ⟨fun ⟨ch, mem, bad⟩ => decodeFn_of_bad fun good => firstBad_eq_none_iff.mp good ch mem bad, ?_⟩
  rintro v rfl good
  obtain ⟨ds, hs⟩ := exists_digitsOfString (firstBad_eq_none_iff.mpr good)
  rw [← stringValue_eq_sum hs, decodeFn_of_digits hs]
  exact ⟨fun large => if_pos large, fun small => if_neg (not_le.mpr small)⟩

/-- Settles O23. -/
theorem decodeFnOfEncodeFn : Obligations.DecodeFnOfEncodeFn :=
  ⟨fun _ => decodeFn_encodeFn, decodeFn_A_cons, fun _ => decodeFn_ne_overflow⟩

/-- Settles O41: bit 256 of `ACC` decides between the error and the bytes. -/
theorem decChkStep : Obligations.DecChkStep := by
  refine fun s => ⟨getLsbD_256 _, fun large => ?_, fun fits => ?_⟩
  · rw [exec_decChk, Regs.checked_of_overflow ((getLsbD_256 _).mp large)]
    rfl
  · have small : ¬ 2 ^ 256 ≤ s.regs.acc.toNat := fun le =>
      Bool.false_ne_true (fits.symm.trans ((getLsbD_256 _).mpr le))
    exact exec_decChk_of_fits (not_le.mp small)

/-- Settles O43: outcome by outcome of the two steps. -/
theorem frameDecodeSteps : Obligations.FrameDecodeSteps := by
  refine fun s t => ⟨fun e => ?_, fun e => ?_⟩
  · obtain ⟨-, ⟨-, rfl⟩ | ⟨d, -, rfl⟩⟩ := execDecMac_cases e
    · exact ⟨fun _ => s.regs.peek_raise_of_ne _, fun busy => absurd rfl busy, fun _ => ⟨rfl, rfl⟩, rfl, rfl, rfl, rfl⟩
    · exact ⟨fun x _ => Regs.peek_congr rfl x, fun _ => rfl, fun ne => absurd rfl ne, rfl, rfl, rfl, rfl⟩
  · obtain ⟨-, rfl⟩ | ⟨fits, rfl⟩ := execDecChk_cases e
    · exact ⟨fun _ _ _ => s.regs.peek_raise_of_ne _, fun _ _ => s.regs.peek_raise_of_ne _, rfl, rfl, rfl, rfl, rfl,
        rfl⟩
    · generalize accToBytes s.regs.acc = b
      refine ⟨fun x ge hl hs => ?_, fun large => absurd (fits.symm.trans large) Bool.false_ne_true, rfl, rfl, rfl, rfl,
        rfl, rfl⟩
      rw [← s.regs.peek_setBuffer_of_ge ge, ← Regs.peek_setBlen_of_ne _ hl, ← Regs.peek_setStatus_of_ne _ hs]
      exact Regs.peek_congr rfl x

/-- Settles O34: the length decides between the error and the start. -/
theorem decLengthCheck : Obligations.DecLengthCheck := by
  refine fun s idle => ⟨fun long => ?_, fun t len e => ?_⟩
  · have check : s.regs.acceptDec = s.regs.raise .invalidLength := if_pos long
    rw [exec_dec_idle idle, check, Regs.raise, ← idle]
    rfl
  · rw [exec_dec_start idle len] at e
    obtain rfl := Host.Outcome.next.inj e
    rw [State.setRegs_regs, Regs.startDec_status]
    decide

/-- Settles O35. -/
theorem decStart : Obligations.DecStart := fun _ idle len => exec_dec_start idle len

/-- Settles O40: the character at `IDX` decides between the error and the fold. -/
theorem decMacStep : Obligations.DecMacStep := fun s h =>
  ⟨fun bad => exec_decMac_of_no_digit h bad, fun d good =>
    ⟨mulAdd62 s.regs.acc d, fun small => mulAdd62_of_lt small (digitOf_le good), exec_decMac_of_digit h good⟩⟩

end Sys2Proof.Proofs
end

section
/-! SUPPORT. The `STATUS` byte of an error, by shift and or (R221, R228). -/

namespace Sys2Proof.Machine

/-- The fields of R26 laid side by side are the byte R228 computes. -/
theorem statusError_eq_shiftLeft_or (k : ErrKind) :
    statusError k = (k.code.setWidth 8 <<< 2) ||| 0x02#8 := by
  cases k <;> decide

end Sys2Proof.Machine
end

section
/-! SUPPORT. The statement about 60_exceptions.md, settled. -/

namespace Sys2Proof.Proofs

open Sys2Proof.Machine

/-- Settles O37: `raise` is the two writes by definition, and its byte is the shifted code. -/
theorem raiseWritesStatus : Obligations.RaiseWritesStatus := by
  refine ⟨fun r k => ?_, rfl, rfl, rfl, rfl⟩
  rw [Regs.raise, statusError_eq_shiftLeft_or]

end Sys2Proof.Proofs
end

section
/-! SUPPORT. The host protocol of 70_reset_and_hazards.md R270: step 2 for every length, an operation that ends in an
error under `WAIT` and the test, and the outcomes of the two protocols. -/

namespace Sys2Proof.Machine

/-- From `s` the machine comes to rest with no move left, in a state with `P`. -/
def EndsIdle (s : State) (P : State → Prop) : Prop :=
  ∃ n t, Host.Core.run core n s = .next t ∧ t.script = [] ∧ t.regs.ph = Config.phIdle ∧ P t

theorem EndsIdle.imp {s : State} {P Q : State → Prop} (ends : EndsIdle s P) (h : ∀ t, P t → Q t) :
    EndsIdle s Q := by
  obtain ⟨n, t, run, script, ph, p⟩ := ends
  exact ⟨n, t, run, script, ph, h t p⟩

/-- What a run leads to may be looked at from its end. -/
theorem EndsIdle.of_run {m : Nat} {s u : State} {P : State → Prop} (run : Host.Core.run core m s = .next u)
    (ends : EndsIdle u P) : EndsIdle s P := by
  obtain ⟨n, t, rest, h⟩ := ends
  exact ⟨_, t, run_trans run rest, h⟩

/-! ### Step 2: the operand and its length, or a length above the limit -/

theorem encodeProtocol_eq (data : List Byte) : encodeProtocol data =
    loadData data ++ (Pseudo.enc.expand ++ (Pseudo.wait.expand ++ .test :: Pseudo.getC.expand)) := rfl

theorem decodeProtocol_eq (text : List Byte) : decodeProtocol text =
    loadText text ++ (Pseudo.dec.expand ++ (Pseudo.wait.expand ++ .test :: Pseudo.getB.expand)) := rfl

/-- The length value that stands for an operand that is too long (log entry 29). -/
def longLength (l : List Byte) : Byte := BitVec.ofNat 8 (min l.length 255)

/-- The value is above a limit that the length is above, so it is one that `InvalidLength` answers (R162, R192). -/
theorem lt_longLength {l : List Byte} {limit : Nat} (h : limit < l.length) (small : limit < 255) :
    limit < (longLength l).toNat := by
  rw [longLength, length_toNat (by omega)]
  omega

theorem run_loadData_long {r : Regs} (idle : r.ph = Config.phIdle) {data : List Byte} (long : 32 < data.length)
    (rest : List Move) (replies : List Byte) :
    Host.Core.run core 1 ⟨r, loadData data ++ rest, replies⟩ =
      .next ⟨{ r with blen := longLength data }, rest, replies⟩ := by
  have store := step_encodeWr idle Config.blenOffset (longLength data) rest replies
  rw [Regs.idleWrite_of_ne _ (by decide), Regs.poke_blen] at store
  rw [loadData, if_neg (not_le.mpr long)]
  exact run_one store

theorem run_loadText_long {r : Regs} (idle : r.ph = Config.phIdle) {text : List Byte} (long : 43 < text.length)
    (rest : List Move) (replies : List Byte) :
    Host.Core.run core 1 ⟨r, loadText text ++ rest, replies⟩ =
      .next ⟨{ r with clen := longLength text }, rest, replies⟩ := by
  have store := step_encodeWr idle Config.clenOffset (longLength text) rest replies
  rw [Regs.idleWrite_of_ne _ (by decide), Regs.poke_clen] at store
  rw [loadText, if_neg (not_le.mpr long)]
  exact run_one store

/-! ### Steps 3 to 5 with an error -/

/-- At rest a line that writes `CMD` is the acceptance of the value (R121). -/
theorem step_lineWr_cmd {r : Regs} (idle : r.ph = Config.phIdle) (op : Byte) (rest : List Move) (replies : List Byte) :
    step ⟨r, lineWr 0x22 op :: rest, replies⟩ = .next ⟨r.accept op, rest, replies⟩ := by
  rw [lineWr, step_encodeWr idle, Regs.idleWrite_cmd]

/-- After an error the test replies its `STATUS` and the host stops (R270 step 5; log entry 25). -/
theorem step_test_error {r : Regs} {e : ErrKind} (h : r.status = statusError e) (rest : List Move)
    (replies : List Byte) :
    step ⟨r, .test :: rest, replies⟩ = .next ⟨r, [], statusError e :: replies⟩ := by
  have status : r.hostRead Config.statusOffset = statusError e := r.hostRead_status.trans h
  have err : statusErr (statusError e) ≠ 0#3 := by cases e <;> decide
  rw [step_test rfl, exec_rd, afterTest_of_error rest (by rw [status]; exact err)]
  simp only [State.reply, status]

/-- A command whose operation ends in the error `e`, under `WAIT` and the test: the last reply is the error's `STATUS`,
the rest of the script is dropped, and the host sees the effect of `raise` alone (R228). -/
theorem endsIdle_of_error {r : Regs} {n : Nat} {op : Byte} {e : ErrKind} (idle : r.ph = Config.phIdle)
    (operation : Completes n (r.accept op) (r.raise e)) (rest : List Move) (replies : List Byte) :
    EndsIdle ⟨r, lineWr 0x22 op :: .poll :: .test :: rest, replies⟩ fun t =>
      t.replies.head? = some (statusError e) ∧ t.regs.view = (r.raise e).view := by
  obtain ⟨q, run, view, ph⟩ := operation
  have status : q.status = statusError e := congrArg HostView.status view
  have done : statusBusy (statusError e) = false := by cases e <;> decide
  obtain ⟨k, earlier, wait⟩ := run.poll (by rw [status]; exact done) (.test :: rest) replies
  have test := run_one (step_test_error status rest (q.status :: earlier))
  exact ⟨_, _, run_trans (run_cons (step_lineWr_cmd idle op _ replies) wait) test, rfl, ph, rfl, view⟩

/-! ### The encode protocol -/

/-- Data of at most 32 bytes: the test reads a success, and then `GETC` the string. -/
theorem encodeProtocol_of_short {r : Regs} (idle : r.ph = Config.phIdle) {data : List Byte} (len : data.length ≤ 32)
    {text : List Byte} (value : text = encodeFn (ofPlaces 256 (data.map BitVec.toNat))) (replies : List Byte) :
    EndsIdle ⟨r, encodeProtocol data, replies⟩ fun t =>
      t.replies.take (text.length + 2) = text.reverse ++ [BitVec.ofNat 8 text.length, 0x02#8] := by
  have short : (r.withData data).blen.toNat ≤ 32 := (r.withData_blen len).le.trans len
  obtain ⟨k, earlier, q, enc, view, ph⟩ :=
    run_enc ((r.withData_ph data).trans idle) short (.test :: Pseudo.getC.expand) replies
  have status : q.status = statusSuccess := congrArg HostView.status (view.trans (Regs.wholeEnc_view short))
  obtain ⟨clen, clen_le, string⟩ := decOperand_of_wholeEnc short view
  rw [r.encOperand_withData len, ← value] at clen string
  have test := run_one (step_test_success status Pseudo.getC.expand (statusSuccess :: earlier))
  have getC := run_getC ph clen_le [] (statusSuccess :: statusSuccess :: earlier)
  rw [List.append_nil] at getC
  rw [encodeProtocol_eq, loadData, if_pos len]
  refine .of_run (run_setB idle len _ replies) ⟨_, _, run_trans enc (run_trans test getC), rfl, ph, ?_⟩
  rw [string, clen]
  simp [List.take_append, statusSuccess]

/-- Data of more than 32 bytes: `InvalidLength`, and the destination is as before (R162). -/
theorem encodeProtocol_of_long {r : Regs} (idle : r.ph = Config.phIdle) {data : List Byte} (long : 32 < data.length)
    (replies : List Byte) :
    EndsIdle ⟨r, encodeProtocol data, replies⟩ fun t =>
      t.replies.head? = some (statusError .invalidLength) ∧ t.regs.c = r.c ∧ t.regs.clen = r.clen := by
  have above : 32 < (longLength data).toNat := lt_longLength long (by norm_num)
  have operation := completes_acceptEnc { r with blen := longLength data }
  rw [Regs.wholeEnc, if_pos above] at operation
  rw [encodeProtocol_eq]
  refine .of_run (run_loadData_long idle long _ replies)
    ((endsIdle_of_error (r := { r with blen := longLength data }) (op := Config.opEnc) idle operation _ replies).imp ?_)
  rintro t ⟨last, view⟩
  exact ⟨last, congrArg HostView.c view, congrArg HostView.clen view⟩

/-! ### The decode protocol -/

/-- A text with a value: the test reads a success, and then `GETB` the bytes. -/
theorem decodeProtocol_of_value {r : Regs} (idle : r.ph = Config.phIdle) {text : List Byte} (len : text.length ≤ 43)
    {v : Nat} (value : decodeFn text = .ok v) (replies : List Byte) :
    EndsIdle ⟨r, decodeProtocol text, replies⟩ fun t =>
      t.replies.take 33 = (natToBytes32 v).toList.reverse ++ [0x02#8] := by
  have short : (r.withText text).clen.toNat ≤ 43 := (r.withText_clen len).le.trans len
  rw [← r.decOperand_withText len] at value
  obtain ⟨k, earlier, q, dec, view, ph⟩ :=
    run_dec ((r.withText_ph text).trans idle) short value (.test :: Pseudo.getB.expand) replies
  rw [Regs.wholeDec_view short value] at view
  have status : q.status = statusSuccess := congrArg HostView.status view
  have bytes : q.b = natToBytes32 v := congrArg HostView.b view
  have test := run_one (step_test_success status Pseudo.getB.expand (statusSuccess :: earlier))
  have getB := run_getB ph [] (statusSuccess :: statusSuccess :: earlier)
  rw [List.append_nil] at getB
  rw [decodeProtocol_eq, loadText, if_pos len]
  refine .of_run (run_setC idle len _ replies) ⟨_, _, run_trans dec (run_trans test getB), rfl, ph, ?_⟩
  rw [← bytes]
  simp [List.take_append, statusSuccess]

/-- What the host finds after a decode that ended in the error `e`. -/
def DecodeFailed (r : Regs) (e : ErrKind) (t : State) : Prop :=
  t.replies.head? = some (statusError e) ∧ t.regs.b = r.b ∧ t.regs.blen = r.blen

/-- Text of more than 43 characters: `InvalidLength` (R192). -/
theorem decodeProtocol_of_long {r : Regs} (idle : r.ph = Config.phIdle) {text : List Byte} (long : 43 < text.length)
    (replies : List Byte) :
    EndsIdle ⟨r, decodeProtocol text, replies⟩ (DecodeFailed r .invalidLength) := by
  have above : 43 < (longLength text).toNat := lt_longLength long (by norm_num)
  have operation := completes_acceptDec { r with clen := longLength text }
  rw [Regs.wholeDec, if_pos above] at operation
  rw [decodeProtocol_eq]
  refine .of_run (run_loadText_long idle long _ replies)
    ((endsIdle_of_error (r := { r with clen := longLength text }) (op := Config.opDec) idle operation _ replies).imp ?_)
  rintro t ⟨last, view⟩
  exact ⟨last, congrArg HostView.b view, congrArg HostView.blen view⟩

/-- A text on which `DecodeFn` gives an error ends with that error (R223, R224). -/
theorem decodeProtocol_of_error {r : Regs} (idle : r.ph = Config.phIdle) {text : List Byte} (len : text.length ≤ 43)
    {e : ErrKind} (value : decodeFn text = .error e) (replies : List Byte) :
    EndsIdle ⟨r, decodeProtocol text, replies⟩ (DecodeFailed r e) := by
  have short : (r.withText text).clen.toNat ≤ 43 := (r.withText_clen len).le.trans len
  rw [← r.decOperand_withText len] at value
  have operation := completes_acceptDec (r.withText text)
  rw [Regs.wholeDec_of_error short value] at operation
  rw [decodeProtocol_eq, loadText, if_pos len]
  refine .of_run (run_setC idle len _ replies)
    ((endsIdle_of_error (op := Config.opDec) ((r.withText_ph text).trans idle) operation _ replies).imp ?_)
  rintro t ⟨last, view⟩
  exact ⟨last, congrArg HostView.b view, congrArg HostView.blen view⟩

end Sys2Proof.Machine
end

section
/-! SUPPORT. Reset and the values of `STATUS` that no step but a reset makes zero (70_reset_and_hazards.md R261), and
what every host line leaves of the script (R280). -/

namespace Sys2Proof.Machine

/-! ### Right after reset -/

/-- After reset every offset reads 0x00 (R35, R261). -/
theorem Regs.hostRead_reset (a : Offset) : Regs.reset.hostRead a = 0x00#8 := by
  rw [Regs.hostRead_idle rfl]
  rcases offset_cases a with h | rfl | rfl | rfl | rfl | h | ⟨j, hj, h⟩ | ⟨h, -⟩
  · rw [Regs.peek_b _ h]
    exact Vector.getElem_replicate h
  · exact Regs.peek_blen _
  · exact Regs.peek_clen _
  · exact Regs.peek_cmd _
  · exact Regs.peek_status _
  · exact Regs.peek_reserved _ (.inl h)
  · rw [Regs.peek_c _ hj h]
    exact Vector.getElem_replicate hj
  · exact Regs.peek_reserved _ (.inr h)

/-! ### A `STATUS` other than 0x00 -/

theorem statusError_ne_zero (k : ErrKind) : statusError k ≠ 0x00#8 := by
  cases k <;> decide

theorem statusInFlight_ne_zero : statusInFlight ≠ 0x00#8 := by decide

theorem statusSuccess_ne_zero : statusSuccess ≠ 0x00#8 := by decide

/-- Acceptance writes `STATUS`: an error's or that of an operation in flight (R121, R125). -/
theorem Regs.accept_status_ne_zero (r : Regs) (v : Byte) : (r.accept v).status ≠ 0x00#8 := by
  rcases r.accept_cases v with ⟨-, e⟩ | ⟨-, e⟩ | ⟨-, -, e⟩ <;> rw [e]
  · rcases r.acceptEnc_cases with ⟨-, e⟩ | ⟨-, e⟩ <;> rw [e]
    · exact statusError_ne_zero _
    · exact statusInFlight_ne_zero
  · rcases r.acceptDec_cases with ⟨-, e⟩ | ⟨-, e⟩ <;> rw [e]
    · exact statusError_ne_zero _
    · exact statusInFlight_ne_zero
  · exact statusError_ne_zero _

/-- A host line leaves `STATUS` or is an acceptance. -/
theorem status_ne_zero_of_hostInstr {w : TxWord} {s t : State} (h : s.regs.status ≠ 0x00#8)
    (e : exec (hostInstr w) s = .next t) : t.regs.status ≠ 0x00#8 := by
  rcases exec_hostInstr_cases e with same | ⟨-, ⟨v, accept⟩ | ⟨a, v, store⟩⟩
  · rwa [same]
  · rw [accept]
    exact s.regs.accept_status_ne_zero v
  · rwa [store, Regs.poke_status_eq]

/-- No step but a reset makes `STATUS` zero: it leaves `STATUS`, accepts a command or completes one (R127, R261). -/
theorem status_ne_zero_of_step {s t : State} (h : s.regs.status ≠ 0x00#8) (hr : s.script.head? ≠ some .reset)
    (e : step s = .next t) : t.regs.status ≠ 0x00#8 := by
  obtain ⟨u, hu, -, c⟩ := step_cases e
  rw [← hu] at h
  cases c with
  | encDiv _ e =>
    obtain ⟨-, q, d, -, -, rfl⟩ := execEncDiv_cases e
    exact h
  | encRev _ e =>
    obtain ⟨-, -, -, c, -, ⟨-, rfl⟩ | ⟨-, rfl⟩⟩ := execEncRev_cases e
    · exact statusSuccess_ne_zero
    · exact h
  | decMac _ e =>
    obtain ⟨-, ⟨-, rfl⟩ | ⟨d, -, rfl⟩⟩ := execDecMac_cases e
    · exact statusError_ne_zero _
    · exact h
  | decChk _ e =>
    obtain ⟨-, rfl⟩ | ⟨-, rfl⟩ := execDecChk_cases e
    · exact statusError_ne_zero _
    · exact statusSuccess_ne_zero
  | noStep _ e => rwa [e]
  | access w _ e => exact status_ne_zero_of_hostInstr h e
  | macroRead a _ e => rwa [e, State.reply_regs]
  | reset h _ => exact absurd h hr

/-! ### Host lines and the script -/

/-- A host line leaves the moves still to come. -/
theorem exec_hostInstr_script {w : TxWord} {s t : State} (e : exec (hostInstr w) s = .next t) :
    t.script = s.script := by
  rcases hostInstr_cases w with ⟨-, -, -, i⟩ | ⟨-, -, -, i⟩ | ⟨-, -, i⟩ | ⟨-, i⟩ <;> rw [i] at e
  · rcases execEnc_cases e with ⟨-, rfl⟩ | ⟨-, rfl⟩
    · exact State.setRegs_script _ _
    · rfl
  · rcases execDec_cases e with ⟨-, rfl⟩ | ⟨-, rfl⟩
    · exact State.setRegs_script _ _
    · rfl
  · rcases execWr_cases e with ⟨-, -, rfl⟩ | ⟨-, -, rfl⟩ | ⟨-, rfl⟩
    · exact State.setRegs_script _ _
    · exact State.setRegs_script _ _
    · rfl
  · rw [execRd_cases e, State.reply_script]

theorem step_reset {s : State} {rest : List Move} (h : s.script = .reset :: rest) :
    step s = .next (State.applyReset { s with script := rest }) := by
  rw [step, nextTurn, h, Turn.perform]

end Sys2Proof.Machine
end

section
/-! SUPPORT. The statements about 70_reset_and_hazards.md, settled. -/

namespace Sys2Proof.Proofs

open Sys2Proof.Machine

/-- Settles O60: each protocol, outcome by outcome. -/
theorem hostProtocol : Obligations.HostProtocol := by
  refine ⟨?_, ?_⟩
  · rintro ⟨r, script, replies⟩ data idle hscript
    obtain rfl : script = encodeProtocol data := hscript
    rcases Nat.lt_or_ge 32 data.length with long | len
    · exact (encodeProtocol_of_long idle long replies).imp fun t failed =>
        ⟨fun _ len _ => absurd len (not_le.mpr long), fun _ => failed⟩
    · exact (encodeProtocol_of_short idle len rfl replies).imp fun t string =>
        ⟨fun _ _ value => value ▸ string, fun long => absurd len (not_le.mpr long)⟩
  · rintro ⟨r, script, replies⟩ text idle hscript
    obtain rfl : script = decodeProtocol text := hscript
    rcases Nat.lt_or_ge 43 text.length with long | len
    · refine (decodeProtocol_of_long idle long replies).imp fun t failed =>
        ⟨fun _ len _ => absurd len (not_le.mpr long), ?_⟩
      rintro k (⟨-, rfl⟩ | ⟨len, -⟩)
      · exact failed
      · exact absurd len (not_le.mpr long)
    · cases value : decodeFn text with
      | ok v =>
        refine (decodeProtocol_of_value idle len value replies).imp fun t bytes => ⟨?_, ?_⟩
        · rintro _ - ⟨⟩
          exact bytes
        · rintro k (⟨long, -⟩ | ⟨-, ⟨⟩⟩)
          exact absurd len (not_le.mpr long)
      | error e =>
        refine (decodeProtocol_of_error idle len value replies).imp fun t failed => ⟨?_, ?_⟩
        · rintro _ - ⟨⟩
        · rintro k (⟨long, -⟩ | ⟨-, ⟨⟩⟩)
          · exact absurd len (not_le.mpr long)
          · exact failed

/-- Settles O3: an offset names a register at its reset value, and `STATUS` is only ever written non-zero. -/
theorem statusZeroOnlyAfterReset : Obligations.StatusZeroOnlyAfterReset := by
  refine ⟨fun a => ?_, fun s t v idle e => ?_, fun s t h hr e => status_ne_zero_of_step h hr e⟩
  · rw [exec_rd, State.reset, Regs.hostRead_reset]
    rfl
  · rw [exec_wr_idle idle, Regs.idleWrite_cmd] at e
    cases e
    exact s.regs.accept_status_ne_zero v

/-- Settles O2. -/
theorem resetInput : Obligations.ResetInput := fun _ _ h => step_reset h

/-- Settles O9: every host line answers a next state and leaves the moves still to come. -/
theorem everyAccessCompletes : Obligations.EveryAccessCompletes := by
  intro s w rest h
  obtain ⟨t, e⟩ := exec_hostInstr_next w { s with script := rest }
  exact ⟨t, (step_access h).trans e, exec_hostInstr_script e⟩

end Sys2Proof.Proofs
end
